-- ==== Sys2Proof/Word.lean ====
section
/-! DEFINITION. The word types of uPOWER: registers, bytes and instruction words (00_scope R2, R11, R14).

Slices `extractLsb' lo len` number bits from the least significant, as the spec's own pseudocode does (R12). -/

namespace Sys2Proof

/-- A general register, LR, SRR0, CIA, NIA or effective address: `XLEN` = 64 bits (R2, R8). -/
abbrev Word := BitVec 64

/-- One byte of storage (R14). -/
abbrev Byte := BitVec 8

/-- An instruction word: `ILEN` = 32 bits (R8, R80). -/
abbrev InstrWord := BitVec 32

/-- The number of a general register, 0 to 31, as a 5-bit field names it (R21). -/
abbrev RegNum := BitVec 5

end Sys2Proof
end

