-- ==== Sys2Proof/Machine/Bits.lean ====
section
/-! DEFINITION. The rotate and mask primitives of 00_scope R16 to R18. Positions in a mask are the source's: 0 is the
most significant bit (R9). -/

namespace Sys2Proof.Machine

/-- `ROTL64(v, n)` (R16): the 64-bit value rotated left `n` positions; a full turn is the identity. -/
def rotl64 (v : Word) (n : Nat) : Word :=
  if n % 64 = 0 then v else (v <<< (n % 64)) ||| (v >>> (64 - n % 64))

/-- `ROTL32(w, n)` (R17): the word doubled into both halves and the doubleword rotated. PRESUMED, unsafe: the doubling
is the parent ISA's (notes/assumptions/14.md). -/
def rotl32 (w : BitVec 32) (n : Nat) : Word := rotl64 (w ++ w) n

/-- Ones in positions `a` to 63 of the source's numbering. -/
def onesFrom (a : Nat) : Word := BitVec.allOnes 64 >>> a

/-- Ones in positions 0 to `b` of the source's numbering, `b` at most 63. -/
def onesTo (b : Nat) : Word := BitVec.allOnes 64 <<< (63 - b)

/-- `MASK(a, b)` (R18): ones in positions `a` through `b`, wrapping if `a > b`, zeros elsewhere. -/
def mask (a b : Nat) : Word :=
  if a ≤ b then onesFrom a &&& onesTo b else onesFrom a ||| onesTo b

/-- `rep(b, 64)` (R15): a bit repeated 64 times. -/
def repBit (b : Bool) : Word := if b then BitVec.allOnes 64 else 0

end Sys2Proof.Machine
end

