-- ==== Sys2Proof/Machine/Flags.lean ====
section
/-! DEFINITION. The Condition Register: the code a compare writes, the field it goes to (44_compare R194), the bit a
branch tests and what BO makes of it (43_branch R187). These work on CR as a value; they hold no state. -/

namespace Sys2Proof.Machine

/-- The 4-bit result of a compare of `a` with `b` as signed integers (R194): LT, GT, EQ, and a 0 in the last bit. -/
def compareCode (a b : Word) : BitVec 4 :=
  if a.slt b then 0b1000 else if b.slt a then 0b0100 else 0b0010

/-- How far field `bf` stands above the low end of CR: `CR[31-4*BF : 28-4*BF]` (R194). -/
def crFieldShift (bf : BitVec 3) : Nat := 28 - 4 * bf.toNat

/-- CR with field `bf` replaced by `c` and the other 28 bits as they were (R194). -/
def setCrField (cr : BitVec 32) (bf : BitVec 3) (c : BitVec 4) : BitVec 32 :=
  (cr &&& ~~~(0xF#32 <<< crFieldShift bf)) ||| (c.setWidth 32 <<< crFieldShift bf)

/-- The bit a conditional branch tests: `CR{BI + 32}`, which is `CR[31 - BI]` (R187). -/
def crBit (cr : BitVec 32) (bi : BitVec 5) : Bool := cr.getLsbD (31 - bi.toNat)

/-- What a legal BO asks of the tested bit (R187). -/
inductive BranchTest where
  /-- BO = 1z1zz: branch always -/
  | always
  /-- BO = 12: branch if the bit is 1 -/
  | ifSet
  /-- BO = 4: branch if the bit is 0 -/
  | ifClear
  deriving DecidableEq, Repr

/-- The meaning of a BO field, and none for the BO values to which R187 gives no meaning (an invalid form). -/
def boTest (bo : BitVec 5) : Option BranchTest :=
  if bo.getLsbD 4 && bo.getLsbD 2 then some .always
  else if bo = 12 then some .ifSet
  else if bo = 4 then some .ifClear
  else none

/-- Whether a branch with this test is taken when the tested bit is `t` (R187). -/
def testHolds (test : BranchTest) (t : Bool) : Bool :=
  match test with
  | .always => true
  | .ifSet => t
  | .ifClear => !t

end Sys2Proof.Machine
end

