-- ==== Sys2Proof/Config.lean ====
section
/-! DEFINITION. What the environment or an implementation fixes (00_scope R8): the parameters a run carries in its
state, and the values this model names where the spec gives none. -/

namespace Sys2Proof.Config

/-- A range of byte addresses, `base` to `base + size - 1`. -/
structure Region where
  base : Nat
  size : Nat
  deriving DecidableEq, Repr

/-- Whether a byte address lies in a region. -/
def Region.contains (r : Region) (a : Nat) : Bool := decide (r.base ≤ a) && decide (a < r.base + r.size)

/-- `MISALIGNED_DATA` (R8, 20_memory R56): what becomes of a data access whose address is no multiple of its size. -/
inductive MisalignedData where
  /-- performed on the consecutive bytes (the spec's default, D14) -/
  | bytewise
  /-- the model fault `MemFault` -/
  | refuse
  deriving DecidableEq, Repr

/-- The parameters of R8 that decide how an instruction runs. The environment fixes them before the first step
(R230) and no step changes them. They travel in the state because a step takes nothing else: DESIGN CHOICE, safe
(notes/assumptions/4.md). -/
structure Params where
  /-- `MEM_DOMAIN`: the byte addresses that have storage behind them (R64), as a list of regions -/
  memDomain : List Region
  /-- `MISALIGNED_DATA` (R56) -/
  misaligned : MisalignedData
  /-- `EXT_REF`: whether `mtspr`, `mfspr` and `rldicr` are instructions (46 R208) -/
  extRef : Bool
  /-- `PO_BC`: the primary opcode of `bc` and `bca` (30_encoding R96, D4) -/
  poBc : BitVec 6
  deriving DecidableEq, Repr

/-- The default of `PO_BC` (R96, D4). PRESUMED, unsafe: the parent ISA's 16; the source prints 19, which collides with
`bclr` (notes/assumptions/9.md). -/
def defaultPoBc : BitVec 6 := 16

/-- The parameters at reset: every address backed (R64 allows it), misaligned data performed bytewise (the default),
the three optional instructions admitted, `PO_BC` at its default. DESIGN CHOICE: the spec leaves them open; `EXT_REF` =
true departs from its default. Unsafe (notes/assumptions/5.md, 6.md, 7.md, 9.md). -/
def resetParams : Params where
  memDomain := [⟨0, 2 ^ 64⟩]
  misaligned := .bytewise
  extRef := true
  poBc := defaultPoBc

/-- `ENTRY`, the instruction address at reset: a multiple of 4 (70 R231). DESIGN CHOICE, unsafe: the spec gives none;
0x1000 is where its first sample program starts (notes/assumptions/2.md). -/
def entry : Word := 0x1000

/-- What a byte of memory reads as that nothing has written (`MEM_INIT`, R230). DESIGN CHOICE, unsafe: the spec gives
none (notes/assumptions/3.md). -/
def unlistedByte : Byte := 0

end Sys2Proof.Config
end

