-- ==== Sys2Proof/Machine/State.lean ====
section
/-! DEFINITION. The state of the machine (10_state R20), the model faults (60_exceptions R214) and the state at reset. -/

namespace Sys2Proof.Machine

/-- Byte-addressed storage (20_memory R50) as (address, byte) pairs in one canonical form: addresses strictly rising and
below 2^64, no byte equal to what an unlisted address reads as. -/
abbrev Memory := List Host.Cell

/-- What a memory access is for (R214). -/
inductive AccessKind where
  /-- instruction fetch -/
  | fetch
  /-- a load's read -/
  | read
  /-- a store's write -/
  | write
  deriving DecidableEq, Repr

/-- The model faults of 60_exceptions R214. None is an architected exception: the machine stops, and the state is the
one before the instruction. -/
inductive Fault where
  /-- Raised by a step whose word is no row of the table, or a row behind `EXT_REF` while that is false (R108, R208).
  Safe: the spec gives such a word no effect. -/
  | illegalInstruction (iw : InstrWord)
  /-- Raised by `stwu` with RA = 0 (R157) and by `bc`, `bca`, `bclr` with a BO to which R187 gives no meaning. Safe: the
  spec gives the form no effect. -/
  | invalidForm (iw : InstrWord)
  /-- Raised by a fetch, load or store with a byte outside `MEM_DOMAIN`, and by a misaligned load or store where
  `MISALIGNED_DATA` is `refuse` (R53, R54, R56, R58). Safe: the spec names this stop. -/
  | memFault (addr : Word) (size : Nat) (kind : AccessKind)
  deriving DecidableEq, Repr

/-- Reasons to have no meaning for an instruction. -/
inductive Refusal where
  /-- Would be raised by an arm of `exec` that has no meaning yet; every arm has one, so no step raises it. Safe. -/
  | notModelled (mnemonic : String)
  deriving DecidableEq, Repr

/-- Everything the spec gives the machine (R20), and the environment's parameters (R8). -/
structure State where
  /-- x[0] to x[31] (R21); none is hardwired (R22) -/
  gpr : Vector Word 32
  /-- Condition Register: field CR0 is the most significant (R29) -/
  cr : BitVec 32
  /-- Link Register (R32) -/
  lr : Word
  /-- the address after the last `sc` (R33) -/
  srr0 : Word
  /-- the address of the instruction being executed, CIA (R25, R26) -/
  pc : Word
  /-- storage (R50) -/
  mem : Memory
  /-- the parameters the environment fixed before the first step (R230); the model's own field -/
  params : Config.Params
  deriving DecidableEq, Repr

/-- The machine at reset. The spec states no reset value (R40): every register 0, the pc at `ENTRY`, memory with
nothing listed. DESIGN CHOICE, unsafe (notes/assumptions/1.md, 2.md, 3.md). -/
def State.reset : State where
  gpr := Vector.replicate 32 0
  cr := 0
  lr := 0
  srr0 := 0
  pc := Config.entry
  mem := []
  params := Config.resetParams

end Sys2Proof.Machine
end

