-- ==== Sys2Proof/Machine/Memory.lean ====
section
/-! DEFINITION. Memory as a list of bytes by address: one byte read and written, little-endian values of several
bytes (20_memory R52 to R54), and which accesses the parameters permit (R56, R64). -/

namespace Sys2Proof.Machine

/-- The byte at an address; an unlisted address reads as `Config.unlistedByte`. -/
def Memory.read (m : Memory) (a : Nat) : Byte :=
  match m with
  | [] => Config.unlistedByte
  | (k, b) :: rest => if a < k then Config.unlistedByte else if a = k then b else Memory.read rest a

/-- A cell in front of a list, left out if it holds what an unlisted address reads as. -/
def Memory.consCell (a : Nat) (v : Byte) (m : Memory) : Memory :=
  if v = Config.unlistedByte then m else (a, v) :: m

/-- One byte written, in the canonical form. -/
def Memory.write (m : Memory) (a : Nat) (v : Byte) : Memory :=
  match m with
  | [] => Memory.consCell a v []
  | (k, b) :: rest =>
    if a < k then Memory.consCell a v ((k, b) :: rest)
    else if a = k then Memory.consCell a v rest
    else (k, b) :: Memory.write rest a v

/-- The canonical form from address `lo` on. -/
def Memory.wfFrom (lo : Nat) (m : Memory) : Bool :=
  match m with
  | [] => true
  | (k, b) :: rest =>
    decide (lo ≤ k) && decide (k < 2 ^ 64) && decide (b ≠ Config.unlistedByte) && Memory.wfFrom (k + 1) rest

/-- The canonical form: addresses strictly rising and below 2^64, no byte that an unlisted address reads as. -/
def Memory.wf (m : Memory) : Bool := Memory.wfFrom 0 m

/-- The byte at a 64-bit address (R50). -/
def State.byteAt (s : State) (a : Word) : Byte := s.mem.read a.toNat

/-- The `n`-byte value at address `a`, the byte at the lowest address least significant, addresses modulo 2^64
(R52, R53). -/
def Memory.load (m : Memory) (a : Word) : (n : Nat) → BitVec (8 * n)
  | 0 => 0#0
  | n + 1 => (Memory.load m (a + 1) n ++ m.read a.toNat : BitVec (8 * n + 8))

/-- Memory with the `n`-byte value `v` stored at address `a` (R54). -/
def Memory.store (m : Memory) (a : Word) : (n : Nat) → BitVec (8 * n) → Memory
  | 0, _ => m
  | n + 1, v => Memory.store (m.write a.toNat (v.extractLsb' 0 8)) (a + 1) n (v.extractLsb' 8 (8 * n))

/-- Whether a byte address has storage behind it: it is in `MEM_DOMAIN` (R64). -/
def State.backed (s : State) (a : Word) : Bool := s.params.memDomain.any (·.contains a.toNat)

/-- Whether all `n` bytes from address `a` on, modulo 2^64, have storage behind them (R53, R54). -/
def State.backedAll (s : State) (a : Word) (n : Nat) : Bool :=
  (List.range n).all fun i => s.backed (a + BitVec.ofNat 64 i)

/-- Whether `MISALIGNED_DATA` lets a data access of `n` bytes happen at address `a` (R56). -/
def State.alignmentAllows (s : State) (a : Word) (n : Nat) : Bool :=
  match s.params.misaligned with
  | .bytewise => true
  | .refuse => a.toNat % n == 0

/-- Whether an access may happen: a fetch needs its bytes backed (R58), a load or store also the alignment that
`MISALIGNED_DATA` asks for (R56, R155). -/
def State.permits (s : State) (kind : AccessKind) (a : Word) (n : Nat) : Bool :=
  match kind with
  | .fetch => s.backedAll a n
  | .read => s.backedAll a n && s.alignmentAllows a n
  | .write => s.backedAll a n && s.alignmentAllows a n

end Sys2Proof.Machine
end

