-- ==== Sys2Proof/Machine/Operands.lean ====
section
/-! DEFINITION. The operands of an instruction: the general registers, the base of an address, and each immediate as
the 64-bit value R92 gives it. -/

namespace Sys2Proof.Machine

/-- `x[r]`: the contents of a general register (00_scope R15). -/
def State.readGpr (s : State) (r : RegNum) : Word := s.gpr[r.toNat]'r.isLt

/-- `x[r] <- v` (R15). No register is hardwired (10_state R22). -/
def State.writeGpr (s : State) (r : RegNum) (v : Word) : State := { s with gpr := s.gpr.set r.toNat v r.isLt }

/-- `base(RA)`: 0 if the field is 0, whatever register 0 holds, else `x[RA]` (R15). -/
def State.base (s : State) (ra : RegNum) : Word := if ra = 0 then 0 else s.readGpr ra

/-- SI and D: sign-extended 16 bits (30_encoding R92). -/
def signedImm (si : BitVec 16) : Word := si.signExtend 64

/-- SI of `addis`: sixteen zeros on the right, the 32-bit value sign-extended (R92). -/
def shiftedImm (si : BitVec 16) : Word := (si ++ 0#16).signExtend 64

/-- UI: zero-extended 16 bits (R92). -/
def unsignedImm (ui : BitVec 16) : Word := ui.setWidth 64

/-- DS: two zeros on the right, sign-extended (R92). -/
def dsDisp (ds : BitVec 14) : Word := (ds ++ 0#2).signExtend 64

/-- LI: two zeros on the right, sign-extended (R92). -/
def liDisp (li : BitVec 24) : Word := (li ++ 0#2).signExtend 64

/-- BD: two zeros on the right, sign-extended (R92). -/
def bdDisp (bd : BitVec 14) : Word := (bd ++ 0#2).signExtend 64

/-- The low-order word of a register, source bits 32 to 63 (R9). -/
def lowWord (v : Word) : BitVec 32 := v.extractLsb' 0 32

/-- `sext_64` of the low-order word. -/
def sextLowWord (v : Word) : Word := (lowWord v).signExtend 64

/-- An operand of a compare under L: all 64 bits if L = 1, the low-order word sign-extended if L = 0 (44_compare
R197). The L = 0 half is PRESUMED, unsafe (notes/assumptions/12.md). -/
def compareOperand (l : BitVec 1) (v : Word) : Word := if l = 1 then v else sextLowWord v

/-- The effective address of a load or store: `(base(RA) + disp) mod 2^64` (41 R150). -/
def State.effectiveAddress (s : State) (ra : RegNum) (disp : Word) : Word := s.base ra + disp

end Sys2Proof.Machine
end

