-- ==== Sys2Proof/Machine/Ops.lean ====
section
/-! DEFINITION. The operations the meanings share: going on to the next instruction, results in registers, loads and
stores, branches, and the one trap. -/

namespace Sys2Proof.Machine

/-- How an instruction ends. -/
abbrev Result := Host.Outcome State Fault Refusal

/-- `pc <- pc + 4`, modulo 2^64 (10_state R26, R28). -/
def State.advance (s : State) : State := { s with pc := s.pc + 4 }

/-- `pc <- t` (00_scope R15). -/
def State.jump (s : State) (t : Word) : State := { s with pc := t }

/-- An instruction that writes one general register and goes on. -/
def writeResult (s : State) (r : RegNum) (v : Word) : Result := .next (s.writeGpr r v).advance

/-- `MemRead(a, n)` (20_memory R53): the value, or the fault if the access is not permitted. It changes no state. -/
def memRead (s : State) (kind : AccessKind) (a : Word) (n : Nat) : Except Fault (BitVec (8 * n)) :=
  if s.permits kind a n then .ok (s.mem.load a n) else .error (.memFault a n kind)

/-- `MemWrite(a, n, v)` (R54): the bytes stored, or the fault with nothing written. -/
def memWrite (s : State) (a : Word) (n : Nat) (v : BitVec (8 * n)) : Except Fault State :=
  if s.permits .write a n then .ok { s with mem := s.mem.store a n v } else .error (.memFault a n .write)

/-- A load of `n` bytes from `ea` into RT, extended by `extend` (41 R150, R155). -/
def loadResult (s : State) (rt : RegNum) (ea : Word) (n : Nat) (extend : BitVec (8 * n) → Word) : Result :=
  match memRead s .read ea n with
  | .error f => .fault f
  | .ok v => writeResult s rt (extend v)

/-- A store of `n` bytes at `ea` (R150, R155). -/
def storeResult (s : State) (ea : Word) (n : Nat) (v : BitVec (8 * n)) : Result :=
  match memWrite s ea n v with
  | .error f => .fault f
  | .ok t => .next t.advance

/-- A store that also writes its address to RA, in that order (R157); a store that faults writes neither. -/
def storeUpdateResult (s : State) (ra : RegNum) (ea : Word) (n : Nat) (v : BitVec (8 * n)) : Result :=
  match memWrite s ea n v with
  | .error f => .fault f
  | .ok t => writeResult t ra ea

/-- A taken branch (43_branch R176). -/
def branchResult (s : State) (target : Word) : Result := .next (s.jump target)

/-- A taken branch with LK = 1: LR takes the address after the branch (R179). -/
def linkResult (s : State) (target : Word) : Result := .next ({ s with lr := s.pc + 4 }.jump target)

/-- A conditional branch: the form `form` is invalid if BO has no meaning; taken to `target` if the tested CR bit
satisfies BO, else on to the next instruction (R187). -/
def conditionalResult (s : State) (form : InstrWord) (bo bi : BitVec 5) (target : Word) : Result :=
  match boTest bo with
  | none => .fault (.invalidForm form)
  | some test => if testHolds test (crBit s.cr bi) then branchResult s target else .next s.advance

/-- A compare of `a` with `b` into CR field `bf` (44_compare R194). -/
def compareResult (s : State) (bf : BitVec 3) (a b : Word) : Result :=
  .next { s with cr := setCrField s.cr bf (compareCode a b) }.advance

/-- `LR{0:61} || 0b00`: an address with its two low-order bits cleared (43_branch R186). -/
def clearLowTwo (a : Word) : Word := a.extractLsb' 2 62 ++ 0#2

/-- `SC_VECTOR` (45 R200, 20_memory R63). -/
def scVector : Word := 0x0C00

/-- Taking the one trap: SRR0 holds the address after the `sc`, the pc is at the vector, nothing else changes (45 R200,
60_exceptions R211). -/
def takeSystemCall (s : State) : State := { s with srr0 := s.pc + 4, pc := scVector }

/-- The return from the trap: `pc <- SRR0` and nothing else (60_exceptions R215). No instruction does it; the
environment does (45 R202). -/
def returnFromSystemCall (s : State) : State := { s with pc := s.srr0 }

end Sys2Proof.Machine
end

