-- ==== Sys2Proof/Machine/Arithmetic.lean ====
section
/-! DEFINITION. Arithmetic and logical instructions (40 R130 to R142): one register written, no flag, no fault. -/

namespace Sys2Proof.Machine

/-- R130: RA = 0 names register 0. -/
def execAdd (rt ra rb : RegNum) (s : State) : Result := writeResult s rt (s.readGpr ra + s.readGpr rb)

/-- R131. -/
def execAddi (rt ra : RegNum) (si : BitVec 16) (s : State) : Result := writeResult s rt (s.base ra + signedImm si)

/-- R132: shifted for every RA (conflict C2). -/
def execAddis (rt ra : RegNum) (si : BitVec 16) (s : State) : Result := writeResult s rt (s.base ra + shiftedImm si)

/-- R133. -/
def execAnd (ra rs rb : RegNum) (s : State) : Result := writeResult s ra (s.readGpr rs &&& s.readGpr rb)

/-- R134: records nothing in CR (D20). -/
def execAndi (ra rs : RegNum) (ui : BitVec 16) (s : State) : Result :=
  writeResult s ra (s.readGpr rs &&& unsignedImm ui)

/-- R135. -/
def execExtsw (ra rs : RegNum) (s : State) : Result := writeResult s ra (sextLowWord (s.readGpr rs))

/-- R136. -/
def execNand (ra rs rb : RegNum) (s : State) : Result := writeResult s ra (~~~(s.readGpr rs &&& s.readGpr rb))

/-- R137. -/
def execOr (ra rs rb : RegNum) (s : State) : Result := writeResult s ra (s.readGpr rs ||| s.readGpr rb)

/-- R138. -/
def execOri (ra rs : RegNum) (ui : BitVec 16) (s : State) : Result :=
  writeResult s ra (s.readGpr rs ||| unsignedImm ui)

/-- R139: the subtrahend is RA. -/
def execSubf (rt ra rb : RegNum) (s : State) : Result := writeResult s rt (~~~(s.readGpr ra) + s.readGpr rb + 1)

/-- R140. -/
def execXor (ra rs rb : RegNum) (s : State) : Result := writeResult s ra (s.readGpr rs ^^^ s.readGpr rb)

/-- R141. -/
def execXori (ra rs : RegNum) (ui : BitVec 16) (s : State) : Result :=
  writeResult s ra (s.readGpr rs ^^^ unsignedImm ui)

end Sys2Proof.Machine
end

