-- ==== Sys2Proof/Syntax.lean ====
section
/-! DEFINITION. The instructions of uPOWER as syntax: one constructor for each row of spec/opcode_table.json, in the
table's order, operands in assembly order (30_encoding R113). A field is the bits the encoding gives it (R92). -/

namespace Sys2Proof

/-- An instruction. Register fields are numbers 0 to 31; immediates are the raw fields of the word. -/
inductive Instr where
  /-- `add RT,RA,RB` (R130) -/
  | add (rt ra rb : RegNum)
  /-- `addi RT,RA,SI` (R131) -/
  | addi (rt ra : RegNum) (si : BitVec 16)
  /-- `addis RT,RA,SI` (R132) -/
  | addis (rt ra : RegNum) (si : BitVec 16)
  /-- `and RA,RS,RB` (R133) -/
  | and (ra rs rb : RegNum)
  /-- `andi RA,RS,UI` (R134) -/
  | andi (ra rs : RegNum) (ui : BitVec 16)
  /-- `extsw RA,RS` (R135) -/
  | extsw (ra rs : RegNum)
  /-- `nand RA,RS,RB` (R136) -/
  | nand (ra rs rb : RegNum)
  /-- `or RA,RS,RB` (R137) -/
  | or (ra rs rb : RegNum)
  /-- `ori RA,RS,UI` (R138) -/
  | ori (ra rs : RegNum) (ui : BitVec 16)
  /-- `subf RT,RA,RB` (R139) -/
  | subf (rt ra rb : RegNum)
  /-- `xor RA,RS,RB` (R140) -/
  | xor (ra rs rb : RegNum)
  /-- `xori RA,RS,UI` (R141) -/
  | xori (ra rs : RegNum) (ui : BitVec 16)
  /-- `ld RT,DS(RA)` (R151); `ds` is the field, the byte displacement divided by 4 (R93) -/
  | ld (rt : RegNum) (ds : BitVec 14) (ra : RegNum)
  /-- `lwz RT,D(RA)` (R152) -/
  | lwz (rt : RegNum) (d : BitVec 16) (ra : RegNum)
  /-- `std RS,DS(RA)` (R153) -/
  | std (rs : RegNum) (ds : BitVec 14) (ra : RegNum)
  /-- `stw RS,D(RA)` (R154) -/
  | stw (rs : RegNum) (d : BitVec 16) (ra : RegNum)
  /-- `stwu RS,D(RA)` (R157); RA = 0 is an invalid form -/
  | stwu (rs : RegNum) (d : BitVec 16) (ra : RegNum)
  /-- `lhz RT,D(RA)` (R158) -/
  | lhz (rt : RegNum) (d : BitVec 16) (ra : RegNum)
  /-- `lha RT,D(RA)` (R159) -/
  | lha (rt : RegNum) (d : BitVec 16) (ra : RegNum)
  /-- `sth RS,D(RA)` (R160) -/
  | sth (rs : RegNum) (d : BitVec 16) (ra : RegNum)
  /-- `lbz RT,D(RA)` (R161) -/
  | lbz (rt : RegNum) (d : BitVec 16) (ra : RegNum)
  /-- `stb RS,D(RA)` (R162) -/
  | stb (rs : RegNum) (d : BitVec 16) (ra : RegNum)
  /-- `rlwinm RA,RS,SH,MB,ME` (R170) -/
  | rlwinm (ra rs : RegNum) (sh mb me : BitVec 5)
  /-- `sld RA,RS,RB` (R171) -/
  | sld (ra rs rb : RegNum)
  /-- `srd RA,RS,RB` (R172) -/
  | srd (ra rs rb : RegNum)
  /-- `srad RA,RS,RB` (R173) -/
  | srad (ra rs rb : RegNum)
  /-- `sradi RA,RS,SH` (R174); `sh` is the whole 6-bit amount -/
  | sradi (ra rs : RegNum) (sh : BitVec 6)
  /-- `b target` (R180); `li` is the 24-bit field -/
  | b (li : BitVec 24)
  /-- `ba target` (R181) -/
  | ba (li : BitVec 24)
  /-- `bl target` (R182) -/
  | bl (li : BitVec 24)
  /-- `bla target` (R183) -/
  | bla (li : BitVec 24)
  /-- `bc BO,BI,target` (R184); `bd` is the 14-bit field -/
  | bc (bo bi : BitVec 5) (bd : BitVec 14)
  /-- `bca BO,BI,target` (R185) -/
  | bca (bo bi : BitVec 5) (bd : BitVec 14)
  /-- `bclr BO,BI,BH` (R186) -/
  | bclr (bo bi : BitVec 5) (bh : BitVec 2)
  /-- `cmp BF,L,RA,RB` (R195) -/
  | cmp (bf : BitVec 3) (l : BitVec 1) (ra rb : RegNum)
  /-- `cmpi BF,L,RA,SI` (R196) -/
  | cmpi (bf : BitVec 3) (l : BitVec 1) (ra : RegNum) (si : BitVec 16)
  /-- `sc LEV` (R200) -/
  | sc (lev : BitVec 7)
  /-- `mtspr 8,RS` (R205), only with `EXT_REF` -/
  | mtspr (rs : RegNum)
  /-- `mfspr RT,8` (R206), only with `EXT_REF` -/
  | mfspr (rt : RegNum)
  /-- `rldicr RA,RS,SH,ME` (R207), only with `EXT_REF`; `sh` and `me` are the whole 6-bit numbers -/
  | rldicr (ra rs : RegNum) (sh me : BitVec 6)
  deriving DecidableEq, Repr

end Sys2Proof
end

