-- ==== Sys2Proof/Decode.lean ====
section
/-! DEFINITION. The decoder of 30_encoding R99, R100 and the encoder of the formats of R81 to R89, written apart from
each other: the decoder follows the table of match and mask, the encoder the field layouts. -/

namespace Sys2Proof

/-- The field of an instruction word at source bits `a` to `b`, bit 0 the most significant: `iw{a:b}` (00_scope R12). -/
def field (iw : InstrWord) (a b : Nat) : BitVec (b - a + 1) := iw.extractLsb' (31 - b) (b - a + 1)

/-- The primary opcodes of R95 but that of `bc` and `bca`. -/
def otherPrimaryOpcodes : List (BitVec 6) :=
  [11, 14, 15, 17, 18, 19, 21, 24, 26, 28, 30, 31, 32, 34, 36, 37, 38, 40, 42, 44, 58, 62]

/-- Whether R95 leaves a primary opcode unused, so that `PO_BC` at that value keeps the set decodable (R96, D4). -/
def freePrimaryOpcode (po : BitVec 6) : Bool := !otherPrimaryOpcodes.contains po

/-- One line of R100: a word is the row's instruction if and only if `iw & mask = pattern`. -/
structure Row where
  mnemonic : String
  pattern : InstrWord
  mask : InstrWord
  /-- whether the row stands behind `EXT_REF` (R208) -/
  optional : Bool
  build : InstrWord → Instr

/-- Arithmetic and logical rows (R130 to R141). -/
def arithmeticRows : List Row := [
  ⟨"add", 0x7C000214, 0xFC0007FF, false, fun w => .add (field w 6 10) (field w 11 15) (field w 16 20)⟩,
  ⟨"addi", 0x38000000, 0xFC000000, false, fun w => .addi (field w 6 10) (field w 11 15) (field w 16 31)⟩,
  ⟨"addis", 0x3C000000, 0xFC000000, false, fun w => .addis (field w 6 10) (field w 11 15) (field w 16 31)⟩,
  ⟨"and", 0x7C000038, 0xFC0007FF, false, fun w => .and (field w 11 15) (field w 6 10) (field w 16 20)⟩,
  ⟨"andi", 0x70000000, 0xFC000000, false, fun w => .andi (field w 11 15) (field w 6 10) (field w 16 31)⟩,
  ⟨"extsw", 0x7C0007B4, 0xFC00FFFF, false, fun w => .extsw (field w 11 15) (field w 6 10)⟩,
  ⟨"nand", 0x7C0003B8, 0xFC0007FF, false, fun w => .nand (field w 11 15) (field w 6 10) (field w 16 20)⟩,
  ⟨"or", 0x7C000378, 0xFC0007FF, false, fun w => .or (field w 11 15) (field w 6 10) (field w 16 20)⟩,
  ⟨"ori", 0x60000000, 0xFC000000, false, fun w => .ori (field w 11 15) (field w 6 10) (field w 16 31)⟩,
  ⟨"subf", 0x7C000050, 0xFC0007FF, false, fun w => .subf (field w 6 10) (field w 11 15) (field w 16 20)⟩,
  ⟨"xor", 0x7C000278, 0xFC0007FF, false, fun w => .xor (field w 11 15) (field w 6 10) (field w 16 20)⟩,
  ⟨"xori", 0x68000000, 0xFC000000, false, fun w => .xori (field w 11 15) (field w 6 10) (field w 16 31)⟩ ]

/-- Data transfer rows (R151 to R162). -/
def dataRows : List Row := [
  ⟨"ld", 0xE8000000, 0xFC000003, false, fun w => .ld (field w 6 10) (field w 16 29) (field w 11 15)⟩,
  ⟨"lwz", 0x80000000, 0xFC000000, false, fun w => .lwz (field w 6 10) (field w 16 31) (field w 11 15)⟩,
  ⟨"std", 0xF8000000, 0xFC000003, false, fun w => .std (field w 6 10) (field w 16 29) (field w 11 15)⟩,
  ⟨"stw", 0x90000000, 0xFC000000, false, fun w => .stw (field w 6 10) (field w 16 31) (field w 11 15)⟩,
  ⟨"stwu", 0x94000000, 0xFC000000, false, fun w => .stwu (field w 6 10) (field w 16 31) (field w 11 15)⟩,
  ⟨"lhz", 0xA0000000, 0xFC000000, false, fun w => .lhz (field w 6 10) (field w 16 31) (field w 11 15)⟩,
  ⟨"lha", 0xA8000000, 0xFC000000, false, fun w => .lha (field w 6 10) (field w 16 31) (field w 11 15)⟩,
  ⟨"sth", 0xB0000000, 0xFC000000, false, fun w => .sth (field w 6 10) (field w 16 31) (field w 11 15)⟩,
  ⟨"lbz", 0x88000000, 0xFC000000, false, fun w => .lbz (field w 6 10) (field w 16 31) (field w 11 15)⟩,
  ⟨"stb", 0x98000000, 0xFC000000, false, fun w => .stb (field w 6 10) (field w 16 31) (field w 11 15)⟩ ]

/-- Rotate and shift rows (R170 to R174). -/
def shiftRows : List Row := [
  ⟨"rlwinm", 0x54000000, 0xFC000001, false, fun w => .rlwinm (field w 11 15) (field w 6 10) (field w 16 20) (field w 21 25) (field w 26 30)⟩,
  ⟨"sld", 0x7C000036, 0xFC0007FF, false, fun w => .sld (field w 11 15) (field w 6 10) (field w 16 20)⟩,
  ⟨"srd", 0x7C000436, 0xFC0007FF, false, fun w => .srd (field w 11 15) (field w 6 10) (field w 16 20)⟩,
  ⟨"srad", 0x7C000634, 0xFC0007FF, false, fun w => .srad (field w 11 15) (field w 6 10) (field w 16 20)⟩,
  ⟨"sradi", 0x7C000674, 0xFC0007FD, false, fun w => .sradi (field w 11 15) (field w 6 10) (field w 30 30 ++ field w 16 20)⟩ ]

/-- Branch rows but those of `bc` and `bca` (R180 to R183, R186). -/
def branchRows : List Row := [
  ⟨"b", 0x48000000, 0xFC000003, false, fun w => .b (field w 6 29)⟩,
  ⟨"ba", 0x48000002, 0xFC000003, false, fun w => .ba (field w 6 29)⟩,
  ⟨"bl", 0x48000001, 0xFC000003, false, fun w => .bl (field w 6 29)⟩,
  ⟨"bla", 0x48000003, 0xFC000003, false, fun w => .bla (field w 6 29)⟩,
  ⟨"bclr", 0x4C000020, 0xFC00E7FF, false, fun w => .bclr (field w 6 10) (field w 11 15) (field w 19 20)⟩ ]

/-- Compare and system call rows (R195, R196, R200). -/
def compareAndCallRows : List Row := [
  ⟨"cmp", 0x7C000000, 0xFC4007FF, false, fun w => .cmp (field w 6 8) (field w 10 10) (field w 11 15) (field w 16 20)⟩,
  ⟨"cmpi", 0x2C000000, 0xFC400000, false, fun w => .cmpi (field w 6 8) (field w 10 10) (field w 11 15) (field w 16 31)⟩,
  ⟨"sc", 0x44000002, 0xFFFFF01F, false, fun w => .sc (field w 20 26)⟩ ]

/-- The three rows behind `EXT_REF` (R205 to R207). -/
def optionalRows : List Row := [
  ⟨"mtspr", 0x7C0803A6, 0xFC1FFFFF, true, fun w => .mtspr (field w 6 10)⟩,
  ⟨"mfspr", 0x7C0802A6, 0xFC1FFFFF, true, fun w => .mfspr (field w 6 10)⟩,
  ⟨"rldicr", 0x78000004, 0xFC00001D, true, fun w => .rldicr (field w 11 15) (field w 6 10) (field w 30 30 ++ field w 16 20) (field w 26 26 ++ field w 21 25)⟩ ]

/-- The 38 rows that do not depend on `PO_BC`. -/
def fixedRows : List Row :=
  arithmeticRows ++ dataRows ++ shiftRows ++ branchRows ++ compareAndCallRows ++ optionalRows

/-- The rows of `bc` and `bca` (R184, R185), with `PO_BC` for their primary opcode (R96). -/
def conditionalRows (poBc : BitVec 6) : List Row := [
  ⟨"bc", poBc ++ 0#26, 0xFC000003, false, fun w => .bc (field w 6 10) (field w 11 15) (field w 16 29)⟩,
  ⟨"bca", poBc ++ 2#26, 0xFC000003, false, fun w => .bca (field w 6 10) (field w 11 15) (field w 16 29)⟩ ]

/-- The opcode table (R100), all 40 rows, for a value of `PO_BC`. -/
def opcodeTable (poBc : BitVec 6) : List Row := fixedRows ++ conditionalRows poBc

/-- Whether a word is a row's instruction (R100). -/
def Row.matchesWord (r : Row) (iw : InstrWord) : Bool := iw &&& r.mask == r.pattern

/-- Why a word is no instruction; either way it is `IllegalInstruction(iw)` (60_exceptions R214). -/
inductive DecodeError where
  /-- no row matches (R108) -/
  | noRow (iw : InstrWord)
  /-- the row stands behind `EXT_REF` and `EXT_REF` is false (R208) -/
  | extRefOff (iw : InstrWord)
  deriving DecidableEq, Repr

/-- The word that did not decode. -/
def DecodeError.word : DecodeError → InstrWord
  | .noRow iw => iw
  | .extRefOff iw => iw

/-- The decoder, total on all 2^32 words (R99): the row that matches, if `EXT_REF` admits it. The invalid forms of
R109 decode; their meanings report them. With a `PO_BC` that R95 uses otherwise two rows can match, which D4 rules out;
the first one is taken (notes/assumptions/9.md). -/
def decode (poBc : BitVec 6) (extRef : Bool) (iw : InstrWord) : Except DecodeError Instr :=
  match (opcodeTable poBc).find? (·.matchesWord iw) with
  | none => .error (.noRow iw)
  | some r => if r.optional && !extRef then .error (.extRefOff iw) else .ok (r.build iw)

/-- The word whose bytes lie at ascending addresses, least significant first (20_memory R57). DESIGN CHOICE of the
spec (D2), unsafe (notes/assumptions/15.md). -/
def wordOfBytes (b0 b1 b2 b3 : Byte) : InstrWord := b3 ++ b2 ++ b1 ++ b0

/-- The bytes of a word at ascending addresses, least significant first (20_memory R57). -/
def bytesOfWord (iw : InstrWord) : List Byte :=
  [iw.extractLsb' 0 8, iw.extractLsb' 8 8, iw.extractLsb' 16 8, iw.extractLsb' 24 8]

/-- The decoder on bytes in memory order: four bytes are one word, any other number is no instruction (R80). -/
def decodeBytes (poBc : BitVec 6) (extRef : Bool) (bytes : List Byte) : Option Instr :=
  match bytes with
  | [b0, b1, b2, b3] => (decode poBc extRef (wordOfBytes b0 b1 b2 b3)).toOption
  | _ => none

/-- The instruction the decoder reads from the table word `w` of `nbits` bits, its bytes laid out as in memory. All
40 rows are admitted, and `PO_BC` has its default. -/
def decodeTableWord (nbits w : Nat) : Option Instr :=
  decodeBytes Config.defaultPoBc true (bytesOfWord (BitVec.ofNat 32 (w % 2 ^ nbits)))

/-! The formats of R81, R84, R85, R205, R207: each field at its place in the word. -/

/-- A field put at the source bits that end at bit `b`: the place `field` reads. -/
def place {n : Nat} (f : BitVec n) (b : Nat) : InstrWord := f.setWidth 32 <<< (31 - b)

/-- X-form, also with BF and L in the place of the first register field. -/
def xForm (po : BitVec 6) (rs ra rb : BitVec 5) (xo : BitVec 10) (rc : BitVec 1) : InstrWord :=
  place po 5 ||| place rs 10 ||| place ra 15 ||| place rb 20 ||| place xo 30 ||| place rc 31

/-- XO-form. -/
def xoForm (po : BitVec 6) (rt ra rb : BitVec 5) (oe : BitVec 1) (xo : BitVec 9) (rc : BitVec 1) : InstrWord :=
  place po 5 ||| place rt 10 ||| place ra 15 ||| place rb 20 ||| place oe 21 ||| place xo 30 ||| place rc 31

/-- XS-form: the shift amount's high bit stands at bit 30, its low five at bits 16 to 20 (R92). -/
def xsForm (po : BitVec 6) (rs ra : BitVec 5) (sh : BitVec 6) (xo : BitVec 9) (rc : BitVec 1) : InstrWord :=
  place po 5 ||| place rs 10 ||| place ra 15 ||| place (sh.extractLsb' 0 5) 20 ||| place xo 29
    ||| place (sh.extractLsb' 5 1) 30 ||| place rc 31

/-- D-form. -/
def dForm (po : BitVec 6) (rt ra : BitVec 5) (imm : BitVec 16) : InstrWord :=
  place po 5 ||| place rt 10 ||| place ra 15 ||| place imm 31

/-- DS-form. -/
def dsForm (po : BitVec 6) (rt ra : BitVec 5) (ds : BitVec 14) (xo : BitVec 2) : InstrWord :=
  place po 5 ||| place rt 10 ||| place ra 15 ||| place ds 29 ||| place xo 31

/-- M-form. -/
def mForm (po : BitVec 6) (rs ra sh mb me : BitVec 5) (rc : BitVec 1) : InstrWord :=
  place po 5 ||| place rs 10 ||| place ra 15 ||| place sh 20 ||| place mb 25 ||| place me 30 ||| place rc 31

/-- B-form. -/
def bForm (po : BitVec 6) (bo bi : BitVec 5) (bd : BitVec 14) (aa lk : BitVec 1) : InstrWord :=
  place po 5 ||| place bo 10 ||| place bi 15 ||| place bd 29 ||| place aa 30 ||| place lk 31

/-- I-form. -/
def iForm (po : BitVec 6) (li : BitVec 24) (aa lk : BitVec 1) : InstrWord :=
  place po 5 ||| place li 29 ||| place aa 30 ||| place lk 31

/-- XL-form, bits 16 to 18 reserved. PRESUMED, unsafe: the parent ISA's layout (R84, notes/assumptions/10.md). -/
def xlForm (po : BitVec 6) (bo bi : BitVec 5) (bh : BitVec 2) (xo : BitVec 10) (lk : BitVec 1) : InstrWord :=
  place po 5 ||| place bo 10 ||| place bi 15 ||| place bh 20 ||| place xo 30 ||| place lk 31

/-- SC-form, bits 6 to 19, 27 to 29 and 31 reserved, bit 30 set. PRESUMED, unsafe: the parent ISA's layout (R85,
notes/assumptions/11.md). -/
def scForm (po : BitVec 6) (lev : BitVec 7) : InstrWord := place po 5 ||| place lev 26 ||| place 1#1 30

/-- XFX-form: the SPR number stands with its two halves exchanged. PRESUMED, unsafe (R205, notes/assumptions/13.md). -/
def xfxForm (po : BitVec 6) (rt : BitVec 5) (spr : BitVec 10) (xo : BitVec 10) : InstrWord :=
  place po 5 ||| place rt 10 ||| place (spr.extractLsb' 0 5) 15 ||| place (spr.extractLsb' 5 5) 20 ||| place xo 30

/-- MD-form: shift amount and mask end each have their high bit apart from their low five (R207). PRESUMED, unsafe
(notes/assumptions/13.md). -/
def mdForm (po : BitVec 6) (rs ra : BitVec 5) (sh me : BitVec 6) (xo : BitVec 3) (rc : BitVec 1) : InstrWord :=
  place po 5 ||| place rs 10 ||| place ra 15 ||| place (sh.extractLsb' 0 5) 20 ||| place (me.extractLsb' 0 5) 25
    ||| place (me.extractLsb' 5 1) 26 ||| place xo 29 ||| place (sh.extractLsb' 5 1) 30 ||| place rc 31

/-- Bits 6 to 10 of a compare: BF, a reserved 0, L. PRESUMED, unsafe: the parent ISA's places (R88,
notes/assumptions/12.md). -/
def compareField (bf : BitVec 3) (l : BitVec 1) : BitVec 5 := bf ++ 0#1 ++ l

/-- The encoder: the word of an instruction, from the formats of R81 and the opcodes of R94 and R96. -/
def encode (poBc : BitVec 6) (i : Instr) : InstrWord :=
  match i with
  | .add rt ra rb => xoForm 31 rt ra rb 0 266 0
  | .addi rt ra si => dForm 14 rt ra si
  | .addis rt ra si => dForm 15 rt ra si
  | .and ra rs rb => xForm 31 rs ra rb 28 0
  | .andi ra rs ui => dForm 28 rs ra ui
  | .extsw ra rs => xForm 31 rs ra 0 986 0
  | .nand ra rs rb => xForm 31 rs ra rb 476 0
  | .or ra rs rb => xForm 31 rs ra rb 444 0
  | .ori ra rs ui => dForm 24 rs ra ui
  | .subf rt ra rb => xoForm 31 rt ra rb 0 40 0
  | .xor ra rs rb => xForm 31 rs ra rb 316 0
  | .xori ra rs ui => dForm 26 rs ra ui
  | .ld rt ds ra => dsForm 58 rt ra ds 0
  | .lwz rt d ra => dForm 32 rt ra d
  | .std rs ds ra => dsForm 62 rs ra ds 0
  | .stw rs d ra => dForm 36 rs ra d
  | .stwu rs d ra => dForm 37 rs ra d
  | .lhz rt d ra => dForm 40 rt ra d
  | .lha rt d ra => dForm 42 rt ra d
  | .sth rs d ra => dForm 44 rs ra d
  | .lbz rt d ra => dForm 34 rt ra d
  | .stb rs d ra => dForm 38 rs ra d
  | .rlwinm ra rs sh mb me => mForm 21 rs ra sh mb me 0
  | .sld ra rs rb => xForm 31 rs ra rb 27 0
  | .srd ra rs rb => xForm 31 rs ra rb 539 0
  | .srad ra rs rb => xForm 31 rs ra rb 794 0
  | .sradi ra rs sh => xsForm 31 rs ra sh 413 0
  | .b li => iForm 18 li 0 0
  | .ba li => iForm 18 li 1 0
  | .bl li => iForm 18 li 0 1
  | .bla li => iForm 18 li 1 1
  | .bc bo bi bd => bForm poBc bo bi bd 0 0
  | .bca bo bi bd => bForm poBc bo bi bd 1 0
  | .bclr bo bi bh => xlForm 19 bo bi bh 16 0
  | .cmp bf l ra rb => xForm 31 (compareField bf l) ra rb 0 0
  | .cmpi bf l ra si => dForm 11 (compareField bf l) ra si
  | .sc lev => scForm 17 lev
  | .mtspr rs => xfxForm 31 rs 8 467
  | .mfspr rt => xfxForm 31 rt 8 339
  | .rldicr ra rs sh me => mdForm 30 rs ra sh me 1 0

end Sys2Proof
end

