-- ==== Sys2Proof/Machine/Branch.lean ====
section
/-! DEFINITION. Branches (43 R176 to R191). A relative target counts from the branch itself (R177). -/

namespace Sys2Proof.Machine

/-- R180. -/
def execB (li : BitVec 24) (s : State) : Result := branchResult s (s.pc + liDisp li)

/-- R181. -/
def execBa (li : BitVec 24) (s : State) : Result := branchResult s (liDisp li)

/-- R182: LR takes CIA + 4 (conflict C6). -/
def execBl (li : BitVec 24) (s : State) : Result := linkResult s (s.pc + liDisp li)

/-- R183. -/
def execBla (li : BitVec 24) (s : State) : Result := linkResult s (liDisp li)

/-- R184. -/
def execBc (bo bi : BitVec 5) (bd : BitVec 14) (s : State) : Result :=
  conditionalResult s (encode s.params.poBc (.bc bo bi bd)) bo bi (s.pc + bdDisp bd)

/-- R185. -/
def execBca (bo bi : BitVec 5) (bd : BitVec 14) (s : State) : Result :=
  conditionalResult s (encode s.params.poBc (.bca bo bi bd)) bo bi (bdDisp bd)

/-- R186: BH is a hint without effect. -/
def execBclr (bo bi : BitVec 5) (bh : BitVec 2) (s : State) : Result :=
  conditionalResult s (encode s.params.poBc (.bclr bo bi bh)) bo bi (clearLowTwo s.lr)

end Sys2Proof.Machine
end

