-- ==== Sys2Proof/Machine/Compare.lean ====
section
/-! DEFINITION. Compares (44 R194 to R197): one CR field written, nothing else. RA = 0 names register 0. -/

namespace Sys2Proof.Machine

/-- R195. -/
def execCmp (bf : BitVec 3) (l : BitVec 1) (ra rb : RegNum) (s : State) : Result :=
  compareResult s bf (compareOperand l (s.readGpr ra)) (compareOperand l (s.readGpr rb))

/-- R196. -/
def execCmpi (bf : BitVec 3) (l : BitVec 1) (ra : RegNum) (si : BitVec 16) (s : State) : Result :=
  compareResult s bf (compareOperand l (s.readGpr ra)) (signedImm si)

end Sys2Proof.Machine
end

