-- ==== Sys2Proof/Machine/DataTransfer.lean ====
section
/-! DEFINITION. Loads and stores (41 R150 to R163). -/

namespace Sys2Proof.Machine

/-- R151. -/
def execLd (rt : RegNum) (ds : BitVec 14) (ra : RegNum) (s : State) : Result :=
  loadResult s rt (s.effectiveAddress ra (dsDisp ds)) 8 fun v => v

/-- R152. -/
def execLwz (rt : RegNum) (d : BitVec 16) (ra : RegNum) (s : State) : Result :=
  loadResult s rt (s.effectiveAddress ra (signedImm d)) 4 (BitVec.setWidth 64)

/-- R153. -/
def execStd (rs : RegNum) (ds : BitVec 14) (ra : RegNum) (s : State) : Result :=
  storeResult s (s.effectiveAddress ra (dsDisp ds)) 8 (s.readGpr rs)

/-- R154. -/
def execStw (rs : RegNum) (d : BitVec 16) (ra : RegNum) (s : State) : Result :=
  storeResult s (s.effectiveAddress ra (signedImm d)) 4 (lowWord (s.readGpr rs))

/-- R157: the base is always a register; RA = 0 is an invalid form; the old RS is stored even where RS = RA. -/
def execStwu (rs : RegNum) (d : BitVec 16) (ra : RegNum) (s : State) : Result :=
  if ra = 0 then .fault (.invalidForm (encode s.params.poBc (.stwu rs d ra)))
  else storeUpdateResult s ra (s.readGpr ra + signedImm d) 4 (lowWord (s.readGpr rs))

/-- R158. -/
def execLhz (rt : RegNum) (d : BitVec 16) (ra : RegNum) (s : State) : Result :=
  loadResult s rt (s.effectiveAddress ra (signedImm d)) 2 (BitVec.setWidth 64)

/-- R159: sign-extended (conflict C5). -/
def execLha (rt : RegNum) (d : BitVec 16) (ra : RegNum) (s : State) : Result :=
  loadResult s rt (s.effectiveAddress ra (signedImm d)) 2 (BitVec.signExtend 64)

/-- R160. -/
def execSth (rs : RegNum) (d : BitVec 16) (ra : RegNum) (s : State) : Result :=
  storeResult s (s.effectiveAddress ra (signedImm d)) 2 ((s.readGpr rs).extractLsb' 0 16)

/-- R161. -/
def execLbz (rt : RegNum) (d : BitVec 16) (ra : RegNum) (s : State) : Result :=
  loadResult s rt (s.effectiveAddress ra (signedImm d)) 1 (BitVec.setWidth 64)

/-- R162. -/
def execStb (rs : RegNum) (d : BitVec 16) (ra : RegNum) (s : State) : Result :=
  storeResult s (s.effectiveAddress ra (signedImm d)) 1 ((s.readGpr rs).extractLsb' 0 8)

end Sys2Proof.Machine
end

