-- ==== Sys2Proof/Machine/Shift.lean ====
section
/-! DEFINITION. Rotates and shifts (42 R169 to R174): RA written from RS, no carry, no fault. -/

namespace Sys2Proof.Machine

/-- `n`, the low-order six bits of RB: source bits 58 to 63 (R171). -/
def shiftCount (rb : Word) : Nat := (rb.extractLsb' 0 6).toNat

/-- The result of an algebraic right shift by `n` under the mask `m`: the sign bit where the mask is 0 (R173, R174). -/
def algebraicShift (v : Word) (n : Nat) (m : Word) : Word :=
  (rotl64 v ((64 - n) % 64) &&& m) ||| (repBit (v.getLsbD 63) &&& ~~~m)

/-- R170. -/
def execRlwinm (ra rs : RegNum) (sh mb me : BitVec 5) (s : State) : Result :=
  writeResult s ra (rotl32 (lowWord (s.readGpr rs)) sh.toNat &&& mask (mb.toNat + 32) (me.toNat + 32))

/-- R171: bit 6 of RB (source bit 57) makes the result 0. -/
def execSld (ra rs rb : RegNum) (s : State) : Result :=
  let n := shiftCount (s.readGpr rb)
  let m := if (s.readGpr rb).getLsbD 6 then 0 else mask 0 (63 - n)
  writeResult s ra (rotl64 (s.readGpr rs) n &&& m)

/-- R172. -/
def execSrd (ra rs rb : RegNum) (s : State) : Result :=
  let n := shiftCount (s.readGpr rb)
  let m := if (s.readGpr rb).getLsbD 6 then 0 else mask n 63
  writeResult s ra (rotl64 (s.readGpr rs) ((64 - n) % 64) &&& m)

/-- R173: no carry (D20). -/
def execSrad (ra rs rb : RegNum) (s : State) : Result :=
  let n := shiftCount (s.readGpr rb)
  let m := if (s.readGpr rb).getLsbD 6 then 0 else mask n 63
  writeResult s ra (algebraicShift (s.readGpr rs) n m)

/-- R174: no carry (D20). -/
def execSradi (ra rs : RegNum) (sh : BitVec 6) (s : State) : Result :=
  writeResult s ra (algebraicShift (s.readGpr rs) sh.toNat (mask sh.toNat 63))

end Sys2Proof.Machine
end

