-- ==== Sys2Proof/Machine/System.lean ====
section
/-! DEFINITION. The system call (45 R200) and the instructions behind `EXT_REF` (46 R205 to R207). The decoder keeps
the latter out when `EXT_REF` is false. -/

namespace Sys2Proof.Machine

/-- R200: LEV has no effect. -/
def execSc (_lev : BitVec 7) (s : State) : Result := .next (takeSystemCall s)

/-- R205: all 64 bits go to LR. PRESUMED, unsafe (notes/assumptions/13.md). -/
def execMtspr (rs : RegNum) (s : State) : Result := .next { s with lr := s.readGpr rs }.advance

/-- R206. PRESUMED, unsafe (notes/assumptions/13.md). -/
def execMfspr (rt : RegNum) (s : State) : Result := writeResult s rt s.lr

/-- R207. PRESUMED, unsafe (notes/assumptions/13.md). -/
def execRldicr (ra rs : RegNum) (sh me : BitVec 6) (s : State) : Result :=
  writeResult s ra (rotl64 (s.readGpr rs) sh.toNat &&& mask 0 me.toNat)

end Sys2Proof.Machine
end

