-- ==== Sys2Proof/Machine/Dispatch.lean ====
section
/-! DEFINITION. The meaning of each instruction: one arm for each constructor. -/

namespace Sys2Proof.Machine

/-- One instruction executed in a state: a next state or a model fault (70 R233). -/
def exec (i : Instr) (s : State) : Host.Outcome State Fault Refusal :=
  match i with
  | .add rt ra rb => Sys2Proof.Machine.execAdd rt ra rb s
  | .addi rt ra si => Sys2Proof.Machine.execAddi rt ra si s
  | .addis rt ra si => Sys2Proof.Machine.execAddis rt ra si s
  | .and ra rs rb => Sys2Proof.Machine.execAnd ra rs rb s
  | .andi ra rs ui => Sys2Proof.Machine.execAndi ra rs ui s
  | .extsw ra rs => Sys2Proof.Machine.execExtsw ra rs s
  | .nand ra rs rb => Sys2Proof.Machine.execNand ra rs rb s
  | .or ra rs rb => Sys2Proof.Machine.execOr ra rs rb s
  | .ori ra rs ui => Sys2Proof.Machine.execOri ra rs ui s
  | .subf rt ra rb => Sys2Proof.Machine.execSubf rt ra rb s
  | .xor ra rs rb => Sys2Proof.Machine.execXor ra rs rb s
  | .xori ra rs ui => Sys2Proof.Machine.execXori ra rs ui s
  | .ld rt ds ra => Sys2Proof.Machine.execLd rt ds ra s
  | .lwz rt d ra => Sys2Proof.Machine.execLwz rt d ra s
  | .std rs ds ra => Sys2Proof.Machine.execStd rs ds ra s
  | .stw rs d ra => Sys2Proof.Machine.execStw rs d ra s
  | .stwu rs d ra => Sys2Proof.Machine.execStwu rs d ra s
  | .lhz rt d ra => Sys2Proof.Machine.execLhz rt d ra s
  | .lha rt d ra => Sys2Proof.Machine.execLha rt d ra s
  | .sth rs d ra => Sys2Proof.Machine.execSth rs d ra s
  | .lbz rt d ra => Sys2Proof.Machine.execLbz rt d ra s
  | .stb rs d ra => Sys2Proof.Machine.execStb rs d ra s
  | .rlwinm ra rs sh mb me => Sys2Proof.Machine.execRlwinm ra rs sh mb me s
  | .sld ra rs rb => Sys2Proof.Machine.execSld ra rs rb s
  | .srd ra rs rb => Sys2Proof.Machine.execSrd ra rs rb s
  | .srad ra rs rb => Sys2Proof.Machine.execSrad ra rs rb s
  | .sradi ra rs sh => Sys2Proof.Machine.execSradi ra rs sh s
  | .b li => Sys2Proof.Machine.execB li s
  | .ba li => Sys2Proof.Machine.execBa li s
  | .bl li => Sys2Proof.Machine.execBl li s
  | .bla li => Sys2Proof.Machine.execBla li s
  | .bc bo bi bd => Sys2Proof.Machine.execBc bo bi bd s
  | .bca bo bi bd => Sys2Proof.Machine.execBca bo bi bd s
  | .bclr bo bi bh => Sys2Proof.Machine.execBclr bo bi bh s
  | .cmp bf l ra rb => Sys2Proof.Machine.execCmp bf l ra rb s
  | .cmpi bf l ra si => Sys2Proof.Machine.execCmpi bf l ra si s
  | .sc lev => Sys2Proof.Machine.execSc lev s
  | .mtspr rs => Sys2Proof.Machine.execMtspr rs s
  | .mfspr rt => Sys2Proof.Machine.execMfspr rt s
  | .rldicr ra rs sh me => Sys2Proof.Machine.execRldicr ra rs sh me s

end Sys2Proof.Machine
end

