-- ==== Sys2Proof/Machine/Fetch.lean ====
section
/-! DEFINITION. Fetching and decoding the instruction at the pc (20_memory R57, 60_exceptions R216). -/

namespace Sys2Proof.Machine

/-- `iw <- MemRead(pc, 4)` (R57, R58). -/
def fetch (s : State) : Except Fault InstrWord := memRead s .fetch s.pc 4

/-- The instruction at the pc: first the fetch, then the decoding, each with its fault (R216). -/
def fetchDecode (s : State) : Except Fault Instr :=
  match fetch s with
  | .error f => .error f
  | .ok iw =>
    match decode s.params.poBc s.params.extRef iw with
    | .error e => .error (.illegalInstruction e.word)
    | .ok i => .ok i

/-- A state with an instruction word stored at the pc in the order fetch reads it (R57). -/
def storeAtPc (s : State) (iw : InstrWord) : State := { s with mem := s.mem.store s.pc 4 iw }

end Sys2Proof.Machine
end

