-- ==== Sys2Proof/Machine/Step.lean ====
section
/-! DEFINITION. One step of the machine (70 R233). -/

namespace Sys2Proof.Machine

/-- Fetch at the pc, decode, execute (R233). -/
def step (s : State) : Host.Outcome State Fault Refusal :=
  match fetchDecode s with
  | .error f => .fault f
  | .ok i => exec i s

/-- A state with the table word `w` of `nbits` bits where the next step fetches. -/
def State.withFetchWord (s : State) (nbits w : Nat) : State :=
  storeAtPc s (BitVec.ofNat 32 (w % 2 ^ nbits))

end Sys2Proof.Machine
end

