-- ==== Sys2Proof/Machine/Environment.lean ====
section
/-! DEFINITION. What the environment does after an `sc` (45 R201 to R203): `SyscallService` as an argument of a run.
The step of `sc` itself is the same under every shape. -/

namespace Sys2Proof.Machine

/-- The three shapes of R202. -/
inductive SyscallService where
  /-- the run ends after the step of the `sc` -/
  | halt
  /-- `f` gives the registers and memory after the service; the run resumes at SRR0 -/
  | service (f : State → State)
  /-- the machine goes on at the vector -/
  | handler

/-- A run so far (R203). A fault or refusal keeps the state before the instruction (60_exceptions R214). -/
inductive RunStatus where
  | running (s : State)
  | ended (s : State)
  | faulted (s : State) (f : Fault)
  | refused (s : State) (r : Refusal)
  deriving DecidableEq, Repr

/-- The system call number, in R0 (45 R201). -/
def State.syscallNumber (s : State) : Word := s.readGpr 0

/-- The inputs of a system call: R3 onwards (R201). -/
def State.syscallInputs (s : State) : List Word := s.gpr.toList.drop 3

/-- The Global Offset Table pointer, in R2 by the convention of 10_state R24; no instruction depends on it. -/
def State.gotPointer (s : State) : Word := s.readGpr 2

/-- LEV as the environment sees it, in the instruction word at `SRR0 - 4` (R200, R202). -/
def State.syscallLev (s : State) : BitVec 7 := field (s.mem.load (s.srr0 - 4) 4) 20 26

/-- Whether the instruction at the pc is an `sc`. -/
def atSystemCall (s : State) : Bool :=
  match fetchDecode s with
  | .ok (.sc _) => true
  | _ => false

/-- A service: the registers and memory `f` gives, every other piece of state kept, and `pc <- SRR0` (R202, R215). -/
def serviceReturn (f : State → State) (s : State) : State :=
  returnFromSystemCall { s with gpr := (f s).gpr, mem := (f s).mem }

/-- What follows the step of an `sc` that left the state `s` (R202). -/
def afterSystemCall (service : SyscallService) (s : State) : RunStatus :=
  match service with
  | .halt => .ended s
  | .service f => .running (serviceReturn f s)
  | .handler => .running s

/-- One step of a run (70 R233, R203). -/
def runStep (service : SyscallService) (s : State) : RunStatus :=
  match step s with
  | .fault f => .faulted s f
  | .refused r => .refused s r
  | .next t => if atSystemCall s then afterSystemCall service t else .running t

/-- At most `k` steps of a run, ending where R203 says. -/
def runUnder (service : SyscallService) : Nat → State → RunStatus
  | 0, s => .running s
  | k + 1, s =>
    match runStep service s with
    | .running t => runUnder service k t
    | .ended t => .ended t
    | .faulted t f => .faulted t f
    | .refused t r => .refused t r

end Sys2Proof.Machine
end

