-- ==== Sys2Proof/Machine/Mnemonics.lean ====
section
/-! DEFINITION. The extended mnemonics of 30_encoding R114 to R128: each is one base instruction with some operands
fixed. And the fields an assembler makes of a branch target (R93, R180 to R185) and of a byte displacement. -/

namespace Sys2Proof.Machine

/-- R114. -/
def asmLi (rx : RegNum) (value : BitVec 16) : Instr := .addi rx 0 value
/-- R115. -/
def asmLis (rx : RegNum) (value : BitVec 16) : Instr := .addis rx 0 value
/-- R116, the form `la Rx, D(Ry)`. -/
def asmLa (rx : RegNum) (d : BitVec 16) (ry : RegNum) : Instr := .addi rx ry d
/-- R117. -/
def asmMr (rx ry : RegNum) : Instr := .or rx ry ry
/-- R118. -/
def asmSubi (rx ry : RegNum) (value : BitVec 16) : Instr := .addi rx ry (-value)
/-- R118. -/
def asmSubis (rx ry : RegNum) (value : BitVec 16) : Instr := .addis rx ry (-value)
/-- R119: the source operands swap. -/
def asmSub (rx ry rz : RegNum) : Instr := .subf rx rz ry
/-- R120. -/
def asmSlwi (ra rs : RegNum) (n : BitVec 5) : Instr := .rlwinm ra rs n 0 (31 - n)
/-- R121, only with `EXT_REF`. -/
def asmSldi (rx ry : RegNum) (n : BitVec 6) : Instr := .rldicr rx ry n (63 - n)
/-- R122, only with `EXT_REF`. -/
def asmMtlr (rx : RegNum) : Instr := .mtspr rx
/-- R122, only with `EXT_REF`. -/
def asmMflr (rx : RegNum) : Instr := .mfspr rx
/-- R110: the preferred no-op. -/
def asmNop : Instr := .ori 0 0 0
/-- R123. -/
def asmXnop : Instr := .xori 0 0 0
/-- R124: the field is 0 where none is written. -/
def asmCmpd (rx ry : RegNum) (crf : BitVec 3 := 0) : Instr := .cmp crf 1 rx ry
/-- R124: the field is 0 where none is written. -/
def asmCmpdi (rx : RegNum) (value : BitVec 16) (crf : BitVec 3 := 0) : Instr := .cmpi crf 1 rx value
/-- R125. -/
def asmCmpwi (bf : BitVec 3) (rx : RegNum) (value : BitVec 16) : Instr := .cmpi bf 0 rx value
/-- The BI of bit `k` of CR field `crf`: `4*crf + k` (10_state R30, 44_compare R198). -/
def crFieldBit (crf : BitVec 3) (k : BitVec 2) : BitVec 5 := crf ++ k
/-- R126: branch if the EQ bit of field `crf` is 1; the field is 0 where none is written. -/
def asmBeq (bd : BitVec 14) (crf : BitVec 3 := 0) : Instr := .bc 12 (crFieldBit crf 2) bd
/-- R126: branch if the EQ bit of field `crf` is 0; the field is 0 where none is written. -/
def asmBne (bd : BitVec 14) (crf : BitVec 3 := 0) : Instr := .bc 4 (crFieldBit crf 2) bd
/-- R127: also `bclr` written without operands. -/
def asmBlr : Instr := .bclr 20 0 0

/-- `LI = ((target - CIA) >> 2) & 0xFFFFFF` (43 R180). -/
def liOfTarget (target cia : Word) : BitVec 24 := ((target - cia) >>> 2).setWidth 24
/-- LI of an absolute target (R181). -/
def liOfAddress (target : Word) : BitVec 24 := (target >>> 2).setWidth 24
/-- `BD = ((target - CIA) >> 2) & 0x3FFF` (R184). -/
def bdOfTarget (target cia : Word) : BitVec 14 := ((target - cia) >>> 2).setWidth 14
/-- BD of an absolute target (R185). -/
def bdOfAddress (target : Word) : BitVec 14 := (target >>> 2).setWidth 14
/-- DS of a byte displacement: the displacement divided by 4 (30_encoding R93). -/
def dsOfDisplacement (disp : BitVec 16) : BitVec 14 := disp.extractLsb' 2 14

end Sys2Proof.Machine
end

