-- ==== Sys2Proof/WellFormed.lean ====
section
/-! DEFINITION. Which instructions are valid forms (30_encoding R109). The other limits on operands are the widths of
their fields. -/

namespace Sys2Proof

/-- A valid form: `stwu` has RA other than 0 (R157), and a conditional branch has a BO to which R187 gives a meaning. -/
def Instr.wellFormed (i : Instr) : Bool :=
  match i with
  | .stwu _ _ ra => ra != 0
  | .bc bo _ _ => (Machine.boTest bo).isSome
  | .bca bo _ _ => (Machine.boTest bo).isSome
  | .bclr bo _ _ => (Machine.boTest bo).isSome
  | .add .. | .addi .. | .addis .. | .and .. | .andi .. | .extsw .. | .nand .. | .or .. | .ori .. | .subf ..
  | .xor .. | .xori .. | .ld .. | .lwz .. | .std .. | .stw .. | .lhz .. | .lha .. | .sth .. | .lbz .. | .stb ..
  | .rlwinm .. | .sld .. | .srd .. | .srad .. | .sradi .. | .b .. | .ba .. | .bl .. | .bla .. | .cmp .. | .cmpi ..
  | .sc .. | .mtspr .. | .mfspr .. | .rldicr .. => true

/-- Whether an instruction stands behind `EXT_REF` (46 R208). -/
def Instr.needsExtRef (i : Instr) : Bool :=
  match i with
  | .mtspr .. | .mfspr .. | .rldicr .. => true
  | .add .. | .addi .. | .addis .. | .and .. | .andi .. | .extsw .. | .nand .. | .or .. | .ori .. | .subf ..
  | .xor .. | .xori .. | .ld .. | .lwz .. | .std .. | .stw .. | .stwu .. | .lhz .. | .lha .. | .sth .. | .lbz ..
  | .stb .. | .rlwinm .. | .sld .. | .srd .. | .srad .. | .sradi .. | .b .. | .ba .. | .bl .. | .bla .. | .bc ..
  | .bca .. | .bclr .. | .cmp .. | .cmpi .. | .sc .. => false

end Sys2Proof
end

