-- ==== Sys2Proof/Safety.lean ====
section
/-! DEFINITION. The terms claims are stated in: the invariant of the machine, a run that does not stop, a word that is an
instruction's encoding, what a store and a conditional branch do, and the kinds of instruction. -/

namespace Sys2Proof.Machine

/-- Every listed byte of memory has storage behind it: memory is a function on `MEM_DOMAIN` (10_state R20). -/
def State.memBacked (s : State) : Bool := s.mem.all fun c => s.backed (BitVec.ofNat 64 c.1)

/-- The invariant: memory in its canonical form and inside `MEM_DOMAIN`, the pc a multiple of 4 (10_state R27). A start
state must meet it (70 R231). -/
abbrev State.Inv (s : State) : Prop := s.mem.wf = true ∧ s.memBacked = true ∧ s.pc.toNat % 4 = 0

/-- The next state of an outcome, if there is one. -/
def nextState (r : Result) : Option State :=
  match r with
  | .next t => some t
  | .fault _ => none
  | .refused _ => none

/-- The fault of an outcome, if it is one. -/
def faultOf (r : Result) : Option Fault :=
  match r with
  | .next _ => none
  | .fault f => some f
  | .refused _ => none

/-- An outcome with its next state, if it has one, changed by `f`. -/
def mapNext (f : State → State) (r : Result) : Result :=
  match r with
  | .next t => .next (f t)
  | .fault e => .fault e
  | .refused e => .refused e

/-- A run of `k` steps none of which stops. A proof about a program shows that no model fault is reached (R214). -/
def safeFor : Nat → State → Bool
  | 0, _ => true
  | k + 1, s =>
    match step s with
    | .next t => safeFor k t
    | .fault _ => false
    | .refused _ => false

/-- A field shifted to its place in a word: `field << k` in the encodings of 40 to 46. -/
def fieldAt {n : Nat} (f : BitVec n) (k : Nat) : InstrWord := f.setWidth 32 <<< k

/-- With this `PO_BC` the word `w` is the encoding of `i`, whatever `EXT_REF` is: it decodes to `i` and `i` encodes to
it. -/
def EncodesWith (poBc : BitVec 6) (w : InstrWord) (i : Instr) : Prop :=
  encode poBc i = w ∧ ∀ extRef, decode poBc extRef w = .ok i

/-- The word `w` is the encoding of `i` whatever `EXT_REF` is, and `PO_BC` as D4 asks: unused by R95 otherwise. -/
def Encodes (w : InstrWord) (i : Instr) : Prop := ∀ poBc, freePrimaryOpcode poBc = true → EncodesWith poBc w i

/-- The word `w` is the encoding of `i` where `EXT_REF` is true, and no instruction where it is false (46 R208),
whatever `PO_BC` is, as D4 asks. -/
def EncodesOptional (w : InstrWord) (i : Instr) : Prop :=
  ∀ poBc, freePrimaryOpcode poBc = true →
    encode poBc i = w ∧ decode poBc true w = .ok i ∧ decode poBc false w = .error (.extRefOff w)

/-- A step that fetches the word in this state stops as illegal (30_encoding R108). -/
def IllegalIn (s : State) (w : InstrWord) : Prop := fetch s = .ok w → step s = .fault (.illegalInstruction w)

/-- Every step that fetches the word stops as illegal (R108), whatever `PO_BC` is, as D4 asks. -/
def Illegal (w : InstrWord) : Prop := ∀ s, freePrimaryOpcode s.params.poBc = true → IllegalIn s w

/-- From `s` to `t` the `n` bytes from address `a` on became those of `v`, least significant first, and every other
byte of memory stayed as it was (20_memory R54). -/
def StoresBytes (s t : State) (a : Word) (n : Nat) (v : BitVec (8 * n)) : Prop :=
  (∀ i < n, t.byteAt (a + BitVec.ofNat 64 i) = v.extractLsb' (8 * i) 8) ∧
  ∀ x, (∀ i < n, x ≠ a + BitVec.ofNat 64 i) → t.byteAt x = s.byteAt x

/-- The instruction `i` in `s` stores the `n` bytes of `v` at `ea` and goes on, with every register as it was; where the
access is not permitted it stops, naming it. -/
def StoresAndGoesOn (i : Instr) (s : State) (ea : Word) (n : Nat) (v : BitVec (8 * n)) : Prop :=
  (s.permits .write ea n = true →
    ∃ t, exec i s = .next t ∧ t = { s with mem := t.mem, pc := s.pc + 4 } ∧ StoresBytes s t ea n v) ∧
  (s.permits .write ea n = false → exec i s = .fault (.memFault ea n .write))

/-- The instruction `i` in `s` writes `v` to a register and goes on if the `n` bytes at `ea` may be read; where the
access is not permitted it stops, naming it. -/
def LoadsAndGoesOn (i : Instr) (s : State) (rt : RegNum) (ea : Word) (n : Nat) (v : Word) : Prop :=
  (s.permits .read ea n = true → exec i s = .next { s.writeGpr rt v with pc := s.pc + 4 }) ∧
  (s.permits .read ea n = false → exec i s = .fault (.memFault ea n .read))

/-- The conditional branch `i` in `s`, for every BO (43 R187): always, if CR bit BI + 32 is 1, if it is 0, and an
invalid form. -/
def BranchesOn (i : Instr) (bo bi : BitVec 5) (s : State) (target : Word) : Prop :=
  (bo.getLsbD 4 = true → bo.getLsbD 2 = true → exec i s = .next { s with pc := target }) ∧
  (bo = 12 → exec i s = .next { s with pc := if s.cr.getLsbD (31 - bi.toNat) then target else s.pc + 4 }) ∧
  (bo = 4 → exec i s = .next { s with pc := if s.cr.getLsbD (31 - bi.toNat) then s.pc + 4 else target }) ∧
  (¬(bo.getLsbD 4 = true ∧ bo.getLsbD 2 = true) → bo ≠ 12 → bo ≠ 4 → exec i s = .fault (.invalidForm (encode s.params.poBc i)))

/-- Field `f` of CR: `CR{32+4f : 35+4f}` (00_scope R12). -/
def crField (cr : BitVec 32) (f : BitVec 3) : BitVec 4 := cr.extractLsb' (28 - 4 * f.toNat) 4

/-- What a compare of `a` with `b` leaves of CR: its code in field `bf`, every other field as it was (44 R194). -/
def ComparesInto (cr cr' : BitVec 32) (bf : BitVec 3) (a b : Int) : Prop :=
  crField cr' bf = (if a < b then 0b1000 else if b < a then 0b0100 else 0b0010) ∧
  ∀ f, f ≠ bf → crField cr' f = crField cr f

/-- The kinds of instruction by what they read and write. -/
inductive InstrKind where
  /-- writes one general register from registers and fields -/
  | register
  /-- reads memory into a register -/
  | load
  /-- writes memory -/
  | store
  /-- writes memory and its base register -/
  | storeUpdate
  /-- branches always, without link -/
  | jump
  /-- branches always and writes LR -/
  | link
  /-- branches on a CR bit -/
  | conditional
  /-- writes a CR field -/
  | compare
  /-- `sc` -/
  | systemCall
  /-- writes LR from a register -/
  | toLink
  deriving DecidableEq, Repr

/-- The kind of an instruction. -/
def instrKind (i : Instr) : InstrKind :=
  match i with
  | .add .. | .addi .. | .addis .. | .and .. | .andi .. | .extsw .. | .nand .. | .or .. | .ori .. | .subf .. | .xor ..
  | .xori .. | .rlwinm .. | .sld .. | .srd .. | .srad .. | .sradi .. | .mfspr .. | .rldicr .. => .register
  | .ld .. | .lwz .. | .lhz .. | .lha .. | .lbz .. => .load
  | .std .. | .stw .. | .sth .. | .stb .. => .store
  | .stwu .. => .storeUpdate
  | .b .. | .ba .. => .jump
  | .bl .. | .bla .. => .link
  | .bc .. | .bca .. | .bclr .. => .conditional
  | .cmp .. | .cmpi .. => .compare
  | .sc .. => .systemCall
  | .mtspr .. => .toLink

/-- Whether an instruction reads or writes memory (20_memory R51). -/
def reachesMemory (i : Instr) : Bool :=
  match instrKind i with
  | .load | .store | .storeUpdate => true
  | .register | .jump | .link | .conditional | .compare | .systemCall | .toLink => false

end Sys2Proof.Machine
end

