-- ==== Sys2Proof/Certificates/Slice0/Obligations.lean ====
section
/-! DEFINITION. The statements for the provers, after the numbered rules of spec/. An equation for the whole next state
says the frame too: a field not written in it is the field before. -/

open Sys2Proof Sys2Proof.Machine

/-! ## Encoding -/

/-- Words written out in the spec decode to the instructions they stand for (20_memory R57, 30_encoding R83, R114, R125,
42 R174, 43 R180, 45 R200). The byte order of the first is the spec's decision D2 (notes/assumptions/15.md); the layouts
of bclr, sc, cmpi (BF and L) and rldicr are PRESUMED (notes/assumptions/10.md, 11.md, 12.md, 13.md). -/
def Obligations.WordsOfTheSpecDecode : Prop :=
  decodeBytes Config.defaultPoBc false [0x14, 0x2A, 0x64, 0x7C] = some (.add 3 4 5) ∧
  decode Config.defaultPoBc false 0x7C832838 = .ok (.and 3 4 5) ∧
  decode Config.defaultPoBc false 0x3920000A = .ok (.addi 9 0 10) ∧
  decode Config.defaultPoBc false 0xF8B70020 = .ok (.std 5 8 23) ∧
  decode Config.defaultPoBc false 0x2F890004 = .ok (.cmpi 7 0 9 4) ∧
  decode Config.defaultPoBc false 0x7C83FE76 = .ok (.sradi 3 4 63) ∧
  decode Config.defaultPoBc false 0x48000008 = .ok (.b 2) ∧
  decode Config.defaultPoBc false 0x4E800020 = .ok (.bclr 20 0 0) ∧
  decode Config.defaultPoBc false 0x44000002 = .ok (.sc 0) ∧
  decode Config.defaultPoBc true 0x79291764 = .ok (.rldicr 9 9 2 61)

/-- Every instruction, with every operand and every `PO_BC` that R95 does not use otherwise, is what its encoding decodes
to; where `EXT_REF` is false, every instruction but the three behind it. -/
def Obligations.DecodeOfEncodeIsTheInstruction : Prop :=
  ∀ (poBc : BitVec 6) (i : Instr), freePrimaryOpcode poBc = true →
    decode poBc true (encode poBc i) = .ok i ∧
    (i.needsExtRef = false → decode poBc false (encode poBc i) = .ok i)

/-- A word that decodes is the encoding of what it decodes to, with any `PO_BC`: no bit of it is dropped. -/
def Obligations.EncodeOfDecodeIsTheWord : Prop :=
  ∀ (poBc : BitVec 6) (ext : Bool) (w : InstrWord) (i : Instr), decode poBc ext w = .ok i → encode poBc i = w

/-- At most one row of the opcode table matches a word (R99), with every `PO_BC` that R95 does not use otherwise (R96,
the spec's decision D4). -/
def Obligations.AtMostOneRowMatches : Prop :=
  ∀ (poBc : BitVec 6) (w : InstrWord) (j k : Fin (opcodeTable poBc).length), freePrimaryOpcode poBc = true →
    ((opcodeTable poBc).get j).matchesWord w = true → ((opcodeTable poBc).get k).matchesWord w = true → j = k

/-- Words with the record bit set, or with OE set in `add` and `subf`, are illegal (R106, the spec's decision D9,
notes/assumptions/18.md). -/
def Obligations.RecordAndOverflowWordsAreIllegal : Prop :=
  (∀ w : InstrWord, field w 0 5 = 31 → (field w 21 30).toNat ∈ [28, 476, 444, 316, 986, 27, 539, 794] →
    field w 31 31 = 1 → Illegal w) ∧
  (∀ w : InstrWord, field w 0 5 = 31 → (field w 22 30).toNat ∈ [266, 40] →
    field w 21 21 = 1 ∨ field w 31 31 = 1 → Illegal w) ∧
  (∀ w : InstrWord, field w 0 5 = 31 → field w 21 29 = 413 → field w 31 31 = 1 → Illegal w) ∧
  (∀ w : InstrWord, field w 0 5 = 21 → field w 31 31 = 1 → Illegal w)

/-- Words with a reserved bit set are illegal; BH of `bclr` and LEV of `sc` take any value (R107, the spec's decision
D10, notes/assumptions/18.md). The layouts of `bclr`, `sc`, the compares, `mtspr` and `mfspr` are PRESUMED
(notes/assumptions/10.md, 11.md, 12.md, 13.md). -/
def Obligations.ReservedBitsMustBeZero : Prop :=
  (∀ w : InstrWord, field w 0 5 = 31 → field w 21 30 = 986 → field w 16 20 ≠ 0 → Illegal w) ∧
  (∀ w : InstrWord, field w 0 5 = 31 → field w 21 30 = 0 → field w 9 9 = 1 ∨ field w 31 31 = 1 → Illegal w) ∧
  (∀ w : InstrWord, field w 0 5 = 11 → field w 9 9 = 1 → Illegal w) ∧
  (∀ w : InstrWord, field w 0 5 = 19 → field w 16 18 ≠ 0 → Illegal w) ∧
  (∀ w : InstrWord, field w 0 5 = 17 → field w 6 19 ≠ 0 ∨ field w 27 29 ≠ 0 ∨ field w 31 31 ≠ 0 → Illegal w) ∧
  (∀ w : InstrWord, field w 0 5 = 31 → (field w 21 30).toNat ∈ [467, 339] → field w 31 31 = 1 → Illegal w) ∧
  (∀ (bo bi : BitVec 5) (bh : BitVec 2),
    Encodes (0x4C000020 ||| fieldAt bo 21 ||| fieldAt bi 16 ||| fieldAt bh 11) (.bclr bo bi bh)) ∧
  (∀ lev : BitVec 7, Encodes (0x44000002 ||| fieldAt lev 5) (.sc lev))

/-- A word that matches no row is illegal, and so are the words R108 lists (the spec's decision D11,
notes/assumptions/18.md), the primary opcode of bc and bca being `PO_BC`. The layouts of `bclr`, `sc` and the three
optional instructions are PRESUMED (notes/assumptions/10.md, 11.md, 13.md). -/
def Obligations.UnassignedWordsAreIllegal : Prop :=
  (∀ (s : State) (w : InstrWord), (∀ r ∈ opcodeTable s.params.poBc, r.matchesWord w = false) → IllegalIn s w) ∧
  (∀ (s : State) (w : InstrWord), (field w 0 5).toNat ∉ [11, 14, 15, 17, 18, 19, 21, 24, 26, 28, 30, 31, 32, 34, 36, 37,
    38, 40, 42, 44, 58, 62] → field w 0 5 ≠ s.params.poBc → IllegalIn s w) ∧
  (∀ w : InstrWord, field w 0 5 = 31 → (field w 21 30).toNat ∉ [0, 27, 28, 40, 266, 316, 339, 826, 827, 444, 467, 476,
    539, 794, 986] → Illegal w) ∧
  (∀ (s : State) (w : InstrWord), freePrimaryOpcode s.params.poBc = true → field w 0 5 = s.params.poBc →
    field w 31 31 = 1 → IllegalIn s w) ∧
  (∀ w : InstrWord, field w 0 5 = 19 → field w 21 30 ≠ 16 ∨ field w 31 31 = 1 → Illegal w) ∧
  (∀ w : InstrWord, field w 0 5 = 58 ∨ field w 0 5 = 62 → field w 30 31 ≠ 0 → Illegal w) ∧
  (∀ w : InstrWord, field w 0 5 = 17 → field w 30 30 = 0 → Illegal w) ∧
  (∀ w : InstrWord, field w 0 5 = 30 → field w 27 29 ≠ 1 ∨ field w 31 31 = 1 → Illegal w) ∧
  (∀ w : InstrWord, field w 0 5 = 31 → (field w 21 30).toNat ∈ [467, 339] → field w 11 20 ≠ 0b0100000000 →
    Illegal w) ∧
  (∀ (s : State) (i : Instr), freePrimaryOpcode s.params.poBc = true → s.params.extRef = false →
    i.needsExtRef = true → IllegalIn s (encode s.params.poBc i))

/-- The invalid forms stop, naming the fetched word: `stwu` with RA = 0, and a conditional branch whose BO is none of
1z1zz, 12 and 4 (R109, the spec's decisions D26 and D5, notes/assumptions/17.md). -/
def Obligations.InvalidFormsStop : Prop :=
  (∀ (s : State) (rs : RegNum) (d : BitVec 16), freePrimaryOpcode s.params.poBc = true →
    fetch s = .ok (0x94000000 ||| fieldAt rs 21 ||| fieldAt d 0) →
    step s = .fault (.invalidForm (0x94000000 ||| fieldAt rs 21 ||| fieldAt d 0))) ∧
  (∀ (s : State) (bo bi : BitVec 5) (bd : BitVec 14) (bh : BitVec 2) (w : InstrWord),
    freePrimaryOpcode s.params.poBc = true → ¬(bo.getLsbD 4 = true ∧ bo.getLsbD 2 = true) → bo ≠ 12 → bo ≠ 4 →
    w = encode s.params.poBc (.bc bo bi bd) ∨ w = encode s.params.poBc (.bca bo bi bd) ∨
      w = encode s.params.poBc (.bclr bo bi bh) →
    fetch s = .ok w → step s = .fault (.invalidForm w))

/-! ## The step -/

/-- Where the four bytes at the pc have storage behind them and, least significant first, decode to an instruction, a
step is that instruction executed (R57, 70 R233). That the bytes of an instruction are read least significant first is
the spec's decision D2 (DESIGN CHOICE, notes/assumptions/15.md). -/
def Obligations.StepRunsTheDecodedInstruction : Prop :=
  ∀ (s : State) (i : Instr), s.backedAll s.pc 4 = true →
    decode s.params.poBc s.params.extRef
      (s.byteAt (s.pc + 3) ++ s.byteAt (s.pc + 2) ++ s.byteAt (s.pc + 1) ++ s.byteAt s.pc) = .ok i →
    step s = exec i s

/-- The checks of one step in the order of R216: fetch, decode, form, data access (the order is the spec's decision D11,
notes/assumptions/18.md; that an invalid form stops is D26 and D5, notes/assumptions/17.md). -/
def Obligations.ChecksComeInOrder : Prop :=
  (∀ s : State, s.backedAll s.pc 4 = false → step s = .fault (.memFault s.pc 4 .fetch)) ∧
  (∀ (s : State) (w : InstrWord) (e : DecodeError), fetch s = .ok w → decode s.params.poBc s.params.extRef w = .error e →
    step s = .fault (.illegalInstruction w)) ∧
  (∀ (s : State) (w : InstrWord) (i : Instr), fetch s = .ok w → decode s.params.poBc s.params.extRef w = .ok i →
    i.wellFormed = false → step s = .fault (.invalidForm w)) ∧
  (∀ (s : State) (w : InstrWord) (i : Instr) (f : Fault), fetch s = .ok w → decode s.params.poBc s.params.extRef w = .ok i →
    i.wellFormed = true → step s = .fault f →
    reachesMemory i = true ∧ ∃ a n kind, f = .memFault a n kind ∧ s.permits kind a n = false)

/-- An instruction is never refused, stops as an invalid form exactly if it is one, and stops at a memory access only if
it is a load or store whose access is not permitted (R155, R169, R204, R214). That an invalid form stops is the spec's
decision D26 for `stwu`, D5 for a BO (notes/assumptions/17.md). That `bla` (D21, notes/assumptions/22.md), a compare
with L = 0 (PRESUMED, 12.md), the conditional forms of `bclr` (PRESUMED, 10.md) and `mtspr`, `mfspr`, `rldicr`
(PRESUMED, 13.md) have a meaning is the model's, too. -/
def Obligations.InstructionsStopOnlyAsNamed : Prop :=
  ∀ (i : Instr) (s : State),
    (∀ r, exec i s ≠ .refused r) ∧
    (i.wellFormed = false → exec i s = .fault (.invalidForm (encode s.params.poBc i))) ∧
    ∀ f, exec i s = .fault f → i.wellFormed = true →
      reachesMemory i = true ∧ ∃ a n kind, f = .memFault a n kind ∧ s.permits kind a n = false

/-- The invariant holds at reset, and `PO_BC` there is one that R95 does not use otherwise (the model's reset values:
notes/assumptions/2.md, 3.md, 5.md, 9.md). -/
def Obligations.ResetMeetsTheInvariant : Prop :=
  State.reset.Inv ∧ freePrimaryOpcode State.reset.params.poBc = true

/-- Every step keeps memory canonical and inside `MEM_DOMAIN` and the pc a multiple of 4 (10_state R27, a precondition
of the spec: D24, notes/assumptions/24.md). -/
def Obligations.StepKeepsTheInvariant : Prop := ∀ s t : State, s.Inv → step s = .next t → t.Inv

/-- No step changes the parameters the environment fixed (70 R230; the model's own field, notes/assumptions/4.md). -/
def Obligations.StepKeepsTheParameters : Prop := ∀ s t : State, step s = .next t → t.params = s.params

/-- An instruction other than the ten loads and stores neither reads nor writes memory: its outcome is the same in any
memory, and leaves that memory as it was (20_memory R51). -/
def Obligations.OnlyLoadsAndStoresReachMemory : Prop :=
  ∀ (i : Instr) (s : State) (m : Memory), reachesMemory i = false →
    exec i { s with mem := m } = mapNext (fun t => { t with mem := m }) (exec i s)

/-- A load leaves all of memory as it was, and a store changes no byte outside the ones it stores (R51, R54): a byte
that changed lies in the bytes of a store, at the address it computes. Addresses are taken modulo 2^64 (the spec's
decision D15, notes/assumptions/19.md). -/
def Obligations.OnlyStoredBytesChange : Prop :=
  ∀ (i : Instr) (s t : State) (x : Word), s.mem.wf = true → exec i s = .next t → t.byteAt x ≠ s.byteAt x →
    (instrKind i = .store ∨ instrKind i = .storeUpdate) ∧
    ∃ ra disp, ∃ n ≤ 8, ∃ k < n, x = s.effectiveAddress ra disp + BitVec.ofNat 64 k ∧
      ((∃ rs ds, i = .std rs ds ra ∧ disp = dsDisp ds ∧ n = 8) ∨
       (∃ rs d, (i = .stw rs d ra ∨ i = .stwu rs d ra) ∧ disp = signedImm d ∧ n = 4) ∨
       (∃ rs d, i = .sth rs d ra ∧ disp = signedImm d ∧ n = 2) ∨
       (∃ rs d, i = .stb rs d ra ∧ disp = signedImm d ∧ n = 1))

/-- Only `cmp` and `cmpi` write CR, one field of it; only `bc`, `bca`, `bclr` read it, the one bit they test (10_state
R31). That the field is the one BF names is PRESUMED (conflict C12, notes/assumptions/12.md); that `andi` writes none is
the spec's decision D20 (notes/assumptions/23.md). -/
def Obligations.OnlyComparesWriteCr : Prop :=
  (∀ (i : Instr) (s t : State), exec i s = .next t → t.cr ≠ s.cr →
    ∃ bf, ((∃ l ra rb, i = .cmp bf l ra rb) ∨ ∃ l ra si, i = .cmpi bf l ra si) ∧
      ∀ f, f ≠ bf → crField t.cr f = crField s.cr f) ∧
  (∀ (i : Instr) (s : State) (c : BitVec 32), instrKind i ≠ .compare → instrKind i ≠ .conditional →
    exec i { s with cr := c } = mapNext (fun t => { t with cr := c }) (exec i s)) ∧
  (∀ (i : Instr) (bo bi : BitVec 5) (bd : BitVec 14) (bh : BitVec 2) (s : State) (c : BitVec 32),
    i = .bc bo bi bd ∨ i = .bca bo bi bd ∨ i = .bclr bo bi bh →
    c.getLsbD (31 - bi.toNat) = s.cr.getLsbD (31 - bi.toNat) →
    exec i { s with cr := c } = mapNext (fun t => { t with cr := c }) (exec i s))

/-- A step that changes LR ran `bl` or `bla`, which leave `CIA + 4` there, or `mtspr`, which `EXT_REF` = false keeps out
(43 R179, 46 R205, R209). That `bla` is an instruction is the spec's decision D21 (notes/assumptions/22.md); `mtspr` is
PRESUMED (notes/assumptions/13.md). -/
def Obligations.OnlyLinkBranchesAndMtsprWriteLr : Prop :=
  ∀ s t : State, step s = .next t → t.lr ≠ s.lr →
    ((∃ li, fetchDecode s = .ok (.bl li) ∨ fetchDecode s = .ok (.bla li)) ∧ t.lr = s.pc + 4) ∨
    (s.params.extRef = true ∧ ∃ rs, fetchDecode s = .ok (.mtspr rs) ∧ t.lr = s.readGpr rs)

/-- SRR0 is written only by `sc`, with `pc + 4`, and no instruction reads it (10_state R33). -/
def Obligations.OnlyScWritesSrr0AndNoneReadsIt : Prop :=
  (∀ (i : Instr) (s t : State), exec i s = .next t → t.srr0 ≠ s.srr0 → ∃ lev, i = .sc lev) ∧
  (∀ (lev : BitVec 7) (s t : State), exec (.sc lev) s = .next t → t.srr0 = s.pc + 4) ∧
  (∀ (i : Instr) (s : State) (v : Word), instrKind i ≠ .systemCall →
    exec i { s with srr0 := v } = mapNext (fun t => { t with srr0 := v }) (exec i s)) ∧
  (∀ (lev : BitVec 7) (s : State) (v : Word), exec (.sc lev) { s with srr0 := v } = exec (.sc lev) s)

/-- Where the pc goes (43 R176): on by 4, but for a taken branch, which goes to its target, and `sc`; a conditional branch
whose condition is false changes nothing else. The targets are those of R180 to R186 and R200; a false condition is BO =
12 or 4 as the spec's decision D5 reads them (R187, notes/assumptions/17.md), and `bla` is its decision D21
(notes/assumptions/22.md). -/
def Obligations.OnlyTakenBranchesAndScLeaveTheSequence : Prop :=
  (∀ (i : Instr) (s t : State), exec i s = .next t → t.pc ≠ s.pc + 4 →
    ((∃ lev, i = .sc lev) ∧ t.pc = 0x0000000000000C00) ∨
    (∃ li, (i = .b li ∨ i = .bl li) ∧ t.pc = s.pc + liDisp li) ∨
    (∃ li, (i = .ba li ∨ i = .bla li) ∧ t.pc = liDisp li) ∨
    (∃ bo bi bd, i = .bc bo bi bd ∧ t.pc = s.pc + bdDisp bd) ∨
    (∃ bo bi bd, i = .bca bo bi bd ∧ t.pc = bdDisp bd) ∨
    (∃ bo bi bh, i = .bclr bo bi bh ∧ t.pc = clearLowTwo s.lr)) ∧
  (∀ (i : Instr) (s t : State), exec i s = .next t → instrKind i = .jump ∨ instrKind i = .link →
    ∃ li, (t.pc = s.pc + liDisp li ∧ (i = .b li ∨ i = .bl li)) ∨ (t.pc = liDisp li ∧ (i = .ba li ∨ i = .bla li))) ∧
  (∀ (i : Instr) (bo bi : BitVec 5) (bd : BitVec 14) (bh : BitVec 2) (s : State),
    i = .bc bo bi bd ∨ i = .bca bo bi bd ∨ i = .bclr bo bi bh →
    (bo = 12 ∧ s.cr.getLsbD (31 - bi.toNat) = false) ∨ (bo = 4 ∧ s.cr.getLsbD (31 - bi.toNat) = true) →
    exec i s = .next { s with pc := s.pc + 4 })

/-! ## Memory and registers -/

/-- What it takes for an access to happen: every byte, addresses modulo 2^64, in a region of `MEM_DOMAIN`; for a load or
store also an aligned address where `MISALIGNED_DATA` is `refuse` (R56, R58, R64). `MISALIGNED_DATA`, the wrap at the
top of memory and `MEM_DOMAIN` are the spec's decisions D14, D15 and D16 (notes/assumptions/7.md, 19.md, 5.md). -/
def Obligations.PermittedMeansBackedAndAligned : Prop :=
  ∀ (s : State) (kind : AccessKind) (a : Word) (n : Nat),
    s.permits kind a n = true ↔
      (∀ i < n, ∃ r ∈ s.params.memDomain, r.base ≤ (a + BitVec.ofNat 64 i).toNat ∧
        (a + BitVec.ofNat 64 i).toNat < r.base + r.size) ∧
      (kind = .fetch ∨ s.params.misaligned = .bytewise ∨ a.toNat % n = 0)

/-- The value read is the bytes in little-endian order, the one at the first address least significant (20_memory R52,
R53). That addresses are taken modulo 2^64, an access past the top going on at address 0, is the spec's decision D15
(notes/assumptions/19.md); that a fetch has the order of data is its decision D2 (notes/assumptions/15.md). -/
def Obligations.ReadsAreLittleEndian : Prop :=
  ∀ (s : State) (kind : AccessKind) (a : Word) (n : Nat), s.permits kind a n = true →
    ∃ v : BitVec (8 * n), memRead s kind a n = .ok v ∧
      v.toNat = ∑ i ∈ Finset.range n, (s.byteAt (a + BitVec.ofNat 64 i)).toNat * 2 ^ (8 * i) ∧
      ∀ i < n, v.extractLsb' (8 * i) 8 = s.byteAt (a + BitVec.ofNat 64 i)

/-- A write of 1, 2, 4 or 8 bytes stores exactly its bytes and changes nothing else; with a byte outside `MEM_DOMAIN` it
is the fault and writes nothing (20_memory R54). Addresses are taken modulo 2^64 (the spec's decision D15,
notes/assumptions/19.md), and `MEM_DOMAIN` is its parameter (D16, notes/assumptions/5.md). -/
def Obligations.WritesStoreExactlyTheirBytes : Prop :=
  ∀ (s : State) (a : Word) (n : Nat) (v : BitVec (8 * n)), s.mem.wf = true → n ∈ [1, 2, 4, 8] →
    (s.permits .write a n = true →
      ∃ t, memWrite s a n v = .ok t ∧ t = { s with mem := t.mem } ∧ StoresBytes s t a n v) ∧
    ((∃ i < n, s.backed (a + BitVec.ofNat 64 i) = false) → memWrite s a n v = .error (.memFault a n .write))

/-- A read of any width inside a stored doubleword sees exactly the bytes stored (20_memory R55). Addresses are taken
modulo 2^64 (the spec's decision D15, notes/assumptions/19.md). -/
def Obligations.WidthsSeeTheSameBytes : Prop :=
  ∀ (s : State) (a : Word) (v : BitVec 64) (k n : Nat), s.mem.wf = true → k + n ≤ 8 →
    (s.mem.store a 8 v).load (a + BitVec.ofNat 64 k) n = v.extractLsb' (8 * k) (8 * n)

/-- A word stored where the next instruction is fetched is the word fetched (20_memory R69, the spec's decision D19,
notes/assumptions/20.md). The byte order of a fetch is its decision D2 (notes/assumptions/15.md). -/
def Obligations.AStoreIsSeenByTheNextFetch : Prop :=
  ∀ (s : State) (rs ra : RegNum) (d : BitVec 16), s.mem.wf = true →
    s.effectiveAddress ra (signedImm d) = s.pc + 4 → s.permits .write (s.pc + 4) 4 = true →
    ∃ t, exec (.stw rs d ra) s = .next t ∧ fetch t = .ok ((s.readGpr rs).extractLsb' 0 32)

/-- No register is hardwired: each holds what was last written to it, and a write leaves every other as it was, and
everything that is no general register (10_state R22). -/
def Obligations.RegistersHoldWhatWasWritten : Prop :=
  ∀ (s : State) (r q : RegNum) (v : Word),
    (s.writeGpr r v).readGpr r = v ∧ (q ≠ r → (s.writeGpr r v).readGpr q = s.readGpr q) ∧
    s.writeGpr r v = { s with gpr := (s.writeGpr r v).gpr }

/-- `ROTL64` moves the bit of weight 2^j to weight 2^((j+n) mod 64), is the formula of R16, and is the identity for a full
turn (00_scope R16). -/
def Obligations.Rotl64Rotates : Prop :=
  ∀ (v : Word) (n : Nat), n ≤ 64 →
    (∀ j < 64, (rotl64 v n).getLsbD ((j + n) % 64) = v.getLsbD j) ∧
    (n % 64 ≠ 0 → rotl64 v n = (v <<< (n % 64)) ||| (v >>> (64 - n % 64))) ∧
    (n % 64 = 0 → rotl64 v n = v)

/-- `MASK(a, b)` has ones in positions `a` through `b`, wrapping if `a > b`; position `p` has weight 2^(63-p) (00_scope
R18). -/
def Obligations.MaskHasOnesFromAThroughB : Prop :=
  (∀ a b p : Nat, a < 64 → b < 64 → p < 64 →
    ((mask a b).getLsbD (63 - p) = true ↔ (a ≤ b ∧ a ≤ p ∧ p ≤ b) ∨ (b < a ∧ (a ≤ p ∨ p ≤ b)))) ∧
  mask 0 63 = BitVec.allOnes 64 ∧
  (∀ a < 64, mask a a = 1 <<< (63 - a)) ∧
  (∀ a b : Nat, a ≤ b → b < 64 → (mask a b).toNat = (2 ^ (64 - a) - 1) - (2 ^ (63 - b) - 1))

/-! ## Arithmetic and logical instructions -/

/-- `add` and `subf` (R130, R139). -/
def Obligations.AddAndSubtract : Prop :=
  (∀ rt ra rb : RegNum,
    Encodes (0x7C000214 ||| fieldAt rt 21 ||| fieldAt ra 16 ||| fieldAt rb 11) (.add rt ra rb) ∧
    Encodes (0x7C000050 ||| fieldAt rt 21 ||| fieldAt ra 16 ||| fieldAt rb 11) (.subf rt ra rb)) ∧
  ∀ (rt ra rb : RegNum) (s : State),
    exec (.add rt ra rb) s = .next { s.writeGpr rt (s.readGpr ra + s.readGpr rb) with pc := s.pc + 4 } ∧
    exec (.subf rt ra rb) s = .next { s.writeGpr rt (s.readGpr rb - s.readGpr ra) with pc := s.pc + 4 }

/-- `addi` (R131): RA = 0 means the value 0, whatever register 0 holds. -/
def Obligations.AddImmediate : Prop :=
  (∀ (rt ra : RegNum) (si : BitVec 16),
    Encodes (0x38000000 ||| fieldAt rt 21 ||| fieldAt ra 16 ||| fieldAt si 0) (.addi rt ra si)) ∧
  ∀ (rt ra : RegNum) (si : BitVec 16) (s : State),
    exec (.addi rt ra si) s =
      .next { s.writeGpr rt ((if ra = 0 then 0 else s.readGpr ra) + si.signExtend 64) with pc := s.pc + 4 }

/-- `addis` (R132): the immediate is shifted for every RA (the spec's decision D28); the addend is 65536 times SI. -/
def Obligations.AddImmediateShifted : Prop :=
  (∀ (rt ra : RegNum) (si : BitVec 16),
    Encodes (0x3C000000 ||| fieldAt rt 21 ||| fieldAt ra 16 ||| fieldAt si 0) (.addis rt ra si)) ∧
  ∀ (rt ra : RegNum) (si : BitVec 16) (s : State),
    exec (.addis rt ra si) s =
      .next { s.writeGpr rt ((if ra = 0 then 0 else s.readGpr ra) + (si.signExtend 64 <<< 16)) with pc := s.pc + 4 }

/-- `and`, `nand`, `or`, `xor` (R133, R136, R137, R140). -/
def Obligations.LogicalOfTwoRegisters : Prop :=
  (∀ ra rs rb : RegNum,
    Encodes (0x7C000038 ||| fieldAt rs 21 ||| fieldAt ra 16 ||| fieldAt rb 11) (.and ra rs rb) ∧
    Encodes (0x7C0003B8 ||| fieldAt rs 21 ||| fieldAt ra 16 ||| fieldAt rb 11) (.nand ra rs rb) ∧
    Encodes (0x7C000378 ||| fieldAt rs 21 ||| fieldAt ra 16 ||| fieldAt rb 11) (.or ra rs rb) ∧
    Encodes (0x7C000278 ||| fieldAt rs 21 ||| fieldAt ra 16 ||| fieldAt rb 11) (.xor ra rs rb)) ∧
  ∀ (ra rs rb : RegNum) (s : State),
    exec (.and ra rs rb) s = .next { s.writeGpr ra (s.readGpr rs &&& s.readGpr rb) with pc := s.pc + 4 } ∧
    exec (.nand ra rs rb) s = .next { s.writeGpr ra (~~~(s.readGpr rs &&& s.readGpr rb)) with pc := s.pc + 4 } ∧
    exec (.or ra rs rb) s = .next { s.writeGpr ra (s.readGpr rs ||| s.readGpr rb) with pc := s.pc + 4 } ∧
    exec (.xor ra rs rb) s = .next { s.writeGpr ra (s.readGpr rs ^^^ s.readGpr rb) with pc := s.pc + 4 }

/-- `ori`, `xori` (R138, R141): 48 zeros on the left of UI. -/
def Obligations.LogicalOfAnImmediate : Prop :=
  (∀ (ra rs : RegNum) (ui : BitVec 16),
    Encodes (0x60000000 ||| fieldAt rs 21 ||| fieldAt ra 16 ||| fieldAt ui 0) (.ori ra rs ui) ∧
    Encodes (0x68000000 ||| fieldAt rs 21 ||| fieldAt ra 16 ||| fieldAt ui 0) (.xori ra rs ui)) ∧
  ∀ (ra rs : RegNum) (ui : BitVec 16) (s : State),
    exec (.ori ra rs ui) s = .next { s.writeGpr ra (s.readGpr rs ||| (0#48 ++ ui)) with pc := s.pc + 4 } ∧
    exec (.xori ra rs ui) s = .next { s.writeGpr ra (s.readGpr rs ^^^ (0#48 ++ ui)) with pc := s.pc + 4 }

/-- `andi` (R134): 48 zeros on the left of UI; it writes no CR bit (the spec's decision D20, notes/assumptions/23.md). -/
def Obligations.AndImmediate : Prop :=
  (∀ (ra rs : RegNum) (ui : BitVec 16),
    Encodes (0x70000000 ||| fieldAt rs 21 ||| fieldAt ra 16 ||| fieldAt ui 0) (.andi ra rs ui)) ∧
  ∀ (ra rs : RegNum) (ui : BitVec 16) (s : State),
    exec (.andi ra rs ui) s = .next { s.writeGpr ra (s.readGpr rs &&& (0#48 ++ ui)) with pc := s.pc + 4 }

/-- `extsw` (R135): the low-order word of RS as a signed 64-bit number; the words the rule calls illegal are. -/
def Obligations.ExtendSignWord : Prop :=
  (∀ ra rs : RegNum, Encodes (0x7C0007B4 ||| fieldAt rs 21 ||| fieldAt ra 16) (.extsw ra rs)) ∧
  (∀ w : InstrWord, field w 0 5 = 31 → field w 21 30 = 986 → field w 16 20 ≠ 0 ∨ field w 31 31 = 1 → Illegal w) ∧
  ∀ (ra rs : RegNum) (s : State),
    exec (.extsw ra rs) s =
      .next { s.writeGpr ra (BitVec.ofInt 64 ((s.readGpr rs).extractLsb' 0 32).toInt) with pc := s.pc + 4 }

/-! ## Loads and stores -/

/-- `ld` (R151): eight bytes, the one at the lowest address least significant. -/
def Obligations.LoadDoubleword : Prop :=
  (∀ (rt ra : RegNum) (ds : BitVec 14),
    Encodes (0xE8000000 ||| fieldAt rt 21 ||| fieldAt ra 16 ||| fieldAt (ds ++ 0#2) 0) (.ld rt ds ra)) ∧
  (∀ w : InstrWord, field w 0 5 = 58 → field w 30 31 ≠ 0 → Illegal w) ∧
  ∀ (rt ra : RegNum) (ds : BitVec 14) (s : State) (ea : Word),
    ea = (if ra = 0 then 0 else s.readGpr ra) + (ds ++ 0#2).signExtend 64 →
    LoadsAndGoesOn (.ld rt ds ra) s rt ea 8
      (s.byteAt (ea + 7) ++ s.byteAt (ea + 6) ++ s.byteAt (ea + 5) ++ s.byteAt (ea + 4) ++
        s.byteAt (ea + 3) ++ s.byteAt (ea + 2) ++ s.byteAt (ea + 1) ++ s.byteAt ea)

/-- `lwz`, `lhz`, `lbz` (R152, R158, R161): the bits above the value are 0. -/
def Obligations.ZeroExtendingLoads : Prop :=
  (∀ (rt ra : RegNum) (d : BitVec 16),
    Encodes (0x80000000 ||| fieldAt rt 21 ||| fieldAt ra 16 ||| fieldAt d 0) (.lwz rt d ra) ∧
    Encodes (0xA0000000 ||| fieldAt rt 21 ||| fieldAt ra 16 ||| fieldAt d 0) (.lhz rt d ra) ∧
    Encodes (0x88000000 ||| fieldAt rt 21 ||| fieldAt ra 16 ||| fieldAt d 0) (.lbz rt d ra)) ∧
  ∀ (rt ra : RegNum) (d : BitVec 16) (s : State) (ea : Word),
    ea = (if ra = 0 then 0 else s.readGpr ra) + d.signExtend 64 →
    LoadsAndGoesOn (.lwz rt d ra) s rt ea 4
      (0#32 ++ s.byteAt (ea + 3) ++ s.byteAt (ea + 2) ++ s.byteAt (ea + 1) ++ s.byteAt ea) ∧
    LoadsAndGoesOn (.lhz rt d ra) s rt ea 2 (0#48 ++ s.byteAt (ea + 1) ++ s.byteAt ea) ∧
    LoadsAndGoesOn (.lbz rt d ra) s rt ea 1 (0#56 ++ s.byteAt ea)

/-- `lha` (R159): the sign of the halfword fills the bits above. -/
def Obligations.LoadHalfwordAlgebraic : Prop :=
  (∀ (rt ra : RegNum) (d : BitVec 16),
    Encodes (0xA8000000 ||| fieldAt rt 21 ||| fieldAt ra 16 ||| fieldAt d 0) (.lha rt d ra)) ∧
  ∀ (rt ra : RegNum) (d : BitVec 16) (s : State) (ea : Word),
    ea = (if ra = 0 then 0 else s.readGpr ra) + d.signExtend 64 →
    LoadsAndGoesOn (.lha rt d ra) s rt ea 2 (BitVec.ofInt 64 (s.byteAt (ea + 1) ++ s.byteAt ea).toInt)

/-- `std`, `stw`, `sth`, `stb` (R153, R154, R160, R162): the low-order bytes of RS at the effective address, no register
changed. -/
def Obligations.Stores : Prop :=
  (∀ (rs ra : RegNum) (d : BitVec 16) (ds : BitVec 14),
    Encodes (0xF8000000 ||| fieldAt rs 21 ||| fieldAt ra 16 ||| fieldAt (ds ++ 0#2) 0) (.std rs ds ra) ∧
    Encodes (0x90000000 ||| fieldAt rs 21 ||| fieldAt ra 16 ||| fieldAt d 0) (.stw rs d ra) ∧
    Encodes (0xB0000000 ||| fieldAt rs 21 ||| fieldAt ra 16 ||| fieldAt d 0) (.sth rs d ra) ∧
    Encodes (0x98000000 ||| fieldAt rs 21 ||| fieldAt ra 16 ||| fieldAt d 0) (.stb rs d ra)) ∧
  (∀ w : InstrWord, field w 0 5 = 62 → field w 30 31 ≠ 0 → Illegal w) ∧
  (∀ (s : State) (ra : RegNum) (d : BitVec 16) (ds : BitVec 14),
    s.effectiveAddress ra (signedImm d) = (if ra = 0 then 0 else s.readGpr ra) + d.signExtend 64 ∧
    s.effectiveAddress ra (dsDisp ds) = (if ra = 0 then 0 else s.readGpr ra) + (ds ++ 0#2).signExtend 64) ∧
  ∀ (rs ra : RegNum) (d : BitVec 16) (ds : BitVec 14) (s : State), s.mem.wf = true →
    StoresAndGoesOn (.std rs ds ra) s (s.effectiveAddress ra (dsDisp ds)) 8 (s.readGpr rs) ∧
    StoresAndGoesOn (.stw rs d ra) s (s.effectiveAddress ra (signedImm d)) 4 ((s.readGpr rs).extractLsb' 0 32) ∧
    StoresAndGoesOn (.sth rs d ra) s (s.effectiveAddress ra (signedImm d)) 2 ((s.readGpr rs).extractLsb' 0 16) ∧
    StoresAndGoesOn (.stb rs d ra) s (s.effectiveAddress ra (signedImm d)) 1 ((s.readGpr rs).extractLsb' 0 8)

/-- `stwu` (R157): the old low-order word of RS is stored and RA takes the address; a fault leaves both; RA = 0 is an
invalid form (the spec's decision D26, notes/assumptions/17.md). -/
def Obligations.StoreWordWithUpdate : Prop :=
  (∀ (rs ra : RegNum) (d : BitVec 16),
    Encodes (0x94000000 ||| fieldAt rs 21 ||| fieldAt ra 16 ||| fieldAt d 0) (.stwu rs d ra)) ∧
  (∀ (rs : RegNum) (d : BitVec 16) (s : State),
    exec (.stwu rs d 0) s = .fault (.invalidForm (encode s.params.poBc (.stwu rs d 0)))) ∧
  ∀ (rs ra : RegNum) (d : BitVec 16) (s : State) (ea : Word), s.mem.wf = true → ra ≠ 0 →
    ea = s.readGpr ra + signedImm d →
    signedImm d = d.signExtend 64 ∧
    (s.permits .write ea 4 = true →
      ∃ t, exec (.stwu rs d ra) s = .next t ∧ t = { s.writeGpr ra ea with mem := t.mem, pc := s.pc + 4 } ∧
        StoresBytes s t ea 4 ((s.readGpr rs).extractLsb' 0 32)) ∧
    (s.permits .write ea 4 = false → exec (.stwu rs d ra) s = .fault (.memFault ea 4 .write))

/-! ## Rotates and shifts -/

/-- `rlwinm` (R170), bit by bit: the rotated low-order word under the mask; with MB > ME the high-order word is the whole
rotated word (that half is PRESUMED, notes/assumptions/14.md). -/
def Obligations.RotateLeftWordAndMask : Prop :=
  (∀ (ra rs : RegNum) (sh mb me : BitVec 5),
    Encodes (0x54000000 ||| fieldAt rs 21 ||| fieldAt ra 16 ||| fieldAt sh 11 ||| fieldAt mb 6 ||| fieldAt me 1)
      (.rlwinm ra rs sh mb me)) ∧
  ∀ (ra rs : RegNum) (sh mb me : BitVec 5) (s : State), ∃ v : Word,
    exec (.rlwinm ra rs sh mb me) s = .next { s.writeGpr ra v with pc := s.pc + 4 } ∧
    ∀ q < 32,
      (v.getLsbD q = (((s.readGpr rs).extractLsb' 0 32).getLsbD ((q + 32 - sh.toNat) % 32) &&
        if mb.toNat ≤ me.toNat then decide (31 - me.toNat ≤ q) && decide (q ≤ 31 - mb.toNat)
        else decide (q ≤ 31 - mb.toNat) || decide (31 - me.toNat ≤ q))) ∧
      (v.getLsbD (q + 32) = (((s.readGpr rs).extractLsb' 0 32).getLsbD ((q + 32 - sh.toNat) % 32) &&
        decide (me.toNat < mb.toNat)))

/-- `sld` (R171): a left shift by the low-order seven bits of RB, 0 from 64 on. -/
def Obligations.ShiftLeftDoubleword : Prop :=
  (∀ ra rs rb : RegNum,
    Encodes (0x7C000036 ||| fieldAt rs 21 ||| fieldAt ra 16 ||| fieldAt rb 11) (.sld ra rs rb)) ∧
  ∀ (ra rs rb : RegNum) (s : State) (n : Nat), n = ((s.readGpr rb).extractLsb' 0 7).toNat →
    exec (.sld ra rs rb) s =
      .next { s.writeGpr ra (if n < 64 then s.readGpr rs <<< n else 0) with pc := s.pc + 4 }

/-- `srd` (R172): a logical right shift by the low-order seven bits of RB, 0 from 64 on. -/
def Obligations.ShiftRightDoubleword : Prop :=
  (∀ ra rs rb : RegNum,
    Encodes (0x7C000436 ||| fieldAt rs 21 ||| fieldAt ra 16 ||| fieldAt rb 11) (.srd ra rs rb)) ∧
  ∀ (ra rs rb : RegNum) (s : State) (n : Nat), n = ((s.readGpr rb).extractLsb' 0 7).toNat →
    exec (.srd ra rs rb) s =
      .next { s.writeGpr ra (if n < 64 then s.readGpr rs >>> n else 0) with pc := s.pc + 4 }

/-- `srad` (R173): the signed value divided by 2^n and rounded down; from 64 on, 64 sign bits. -/
def Obligations.ShiftRightAlgebraic : Prop :=
  (∀ ra rs rb : RegNum,
    Encodes (0x7C000634 ||| fieldAt rs 21 ||| fieldAt ra 16 ||| fieldAt rb 11) (.srad ra rs rb)) ∧
  ∀ (ra rs rb : RegNum) (s : State) (n : Nat), n = ((s.readGpr rb).extractLsb' 0 7).toNat →
    exec (.srad ra rs rb) s =
      .next { s.writeGpr ra (if n < 64 then BitVec.ofInt 64 ((s.readGpr rs).toInt / 2 ^ n)
        else if (s.readGpr rs).toInt < 0 then BitVec.allOnes 64 else 0) with pc := s.pc + 4 }

/-- `sradi` (R174): the signed value divided by 2^SH and rounded down; SH's high bit is instruction bit 30. -/
def Obligations.ShiftRightAlgebraicImmediate : Prop :=
  (∀ (ra rs : RegNum) (sh : BitVec 6),
    Encodes (0x7C000674 ||| fieldAt rs 21 ||| fieldAt ra 16 ||| fieldAt (sh.extractLsb' 0 5) 11 |||
      fieldAt (sh.extractLsb' 5 1) 1) (.sradi ra rs sh)) ∧
  ∀ (ra rs : RegNum) (sh : BitVec 6) (s : State),
    exec (.sradi ra rs sh) s =
      .next { s.writeGpr ra (BitVec.ofInt 64 ((s.readGpr rs).toInt / 2 ^ sh.toNat)) with pc := s.pc + 4 }

/-! ## Branches -/

/-- `b` and `ba` (R180, R181): only the pc changes; the field an assembler makes of a target in range leads to it. -/
def Obligations.UnconditionalBranches : Prop :=
  (∀ li : BitVec 24,
    Encodes (0x48000000 ||| fieldAt (li ++ 0#2) 0) (.b li) ∧ Encodes (0x48000002 ||| fieldAt (li ++ 0#2) 0) (.ba li)) ∧
  (∀ (li : BitVec 24) (s : State),
    exec (.b li) s = .next { s with pc := s.pc + (li ++ 0#2).signExtend 64 } ∧
    exec (.ba li) s = .next { s with pc := (li ++ 0#2).signExtend 64 }) ∧
  ∀ (s : State) (k : Int), -2 ^ 23 ≤ k → k < 2 ^ 23 →
    exec (.b (liOfTarget (s.pc + BitVec.ofInt 64 (4 * k)) s.pc)) s =
      .next { s with pc := s.pc + BitVec.ofInt 64 (4 * k) } ∧
    exec (.ba (liOfAddress (BitVec.ofInt 64 (4 * k)))) s = .next { s with pc := BitVec.ofInt 64 (4 * k) }

/-- `bl` (R182): LR takes the address of the instruction after the branch. -/
def Obligations.BranchAndLink : Prop :=
  (∀ li : BitVec 24, Encodes (0x48000001 ||| fieldAt (li ++ 0#2) 0) (.bl li)) ∧
  (∀ (li : BitVec 24) (s : State),
    exec (.bl li) s = .next { s with lr := s.pc + 4, pc := s.pc + (li ++ 0#2).signExtend 64 }) ∧
  ∀ (s : State) (k : Int), -2 ^ 23 ≤ k → k < 2 ^ 23 →
    exec (.bl (liOfTarget (s.pc + BitVec.ofInt 64 (4 * k)) s.pc)) s =
      .next { s with lr := s.pc + 4, pc := s.pc + BitVec.ofInt 64 (4 * k) }

/-- `bla` (R183, the spec's decision D21, notes/assumptions/22.md). -/
def Obligations.BranchAbsoluteAndLink : Prop :=
  (∀ li : BitVec 24, Encodes (0x48000003 ||| fieldAt (li ++ 0#2) 0) (.bla li)) ∧
  ∀ (li : BitVec 24) (s : State),
    exec (.bla li) s = .next { s with lr := s.pc + 4, pc := (li ++ 0#2).signExtend 64 }

/-- Where branches go (R177): a relative target counts from the branch itself, an absolute one is the displacement, and
the displacements are exactly the multiples of 4 in the ranges the rule gives. That `bc` and `bca` with BO = 20 branch
always is the spec's decision D5 (R187, notes/assumptions/17.md). -/
def Obligations.BranchTargets : Prop :=
  (∀ (li : BitVec 24) (bd : BitVec 14) (s : State),
    exec (.b li) s = .next { s with pc := s.pc + liDisp li } ∧ exec (.ba li) s = .next { s with pc := liDisp li } ∧
    exec (.bc 20 0 bd) s = .next { s with pc := s.pc + bdDisp bd } ∧
    exec (.bca 20 0 bd) s = .next { s with pc := bdDisp bd }) ∧
  (∀ a : Word, (∃ li, liDisp li = a) ↔
    a.toNat % 4 = 0 ∧ (a.toNat ≤ 0x01FFFFFC ∨ 0xFFFFFFFFFE000000 ≤ a.toNat)) ∧
  (∀ a : Word, (∃ bd, bdDisp bd = a) ↔ a.toNat % 4 = 0 ∧ (a.toNat ≤ 0x7FFC ∨ 0xFFFFFFFFFFFF8000 ≤ a.toNat)) ∧
  ∀ lr : Word, (clearLowTwo lr).toNat = lr.toNat / 4 * 4

/-- `bc` and `bca` for every BO, BI and CR (R184, R185, R187), encoded under every `PO_BC` that R95 does not use
otherwise (R96, the spec's decision D4), which is 16 by default (PRESUMED, notes/assumptions/9.md); the BO meanings are
the spec's decision D5 (notes/assumptions/17.md); the field an assembler makes of a target in range leads to it. -/
def Obligations.ConditionalBranches : Prop :=
  (∀ (poBc : BitVec 6) (bo bi : BitVec 5) (bd : BitVec 14), freePrimaryOpcode poBc = true →
    EncodesWith poBc (fieldAt poBc 26 ||| fieldAt bo 21 ||| fieldAt bi 16 ||| fieldAt (bd ++ 0#2) 0) (.bc bo bi bd) ∧
    EncodesWith poBc (fieldAt poBc 26 ||| fieldAt bo 21 ||| fieldAt bi 16 ||| fieldAt (bd ++ 2#2) 0) (.bca bo bi bd)) ∧
  (∀ (bo bi : BitVec 5) (bd : BitVec 14),
    EncodesWith Config.defaultPoBc (0x40000000 ||| fieldAt bo 21 ||| fieldAt bi 16 ||| fieldAt (bd ++ 0#2) 0)
      (.bc bo bi bd) ∧
    EncodesWith Config.defaultPoBc (0x40000002 ||| fieldAt bo 21 ||| fieldAt bi 16 ||| fieldAt (bd ++ 0#2) 0)
      (.bca bo bi bd)) ∧
  (∀ (bo bi : BitVec 5) (bd : BitVec 14) (s : State),
    BranchesOn (.bc bo bi bd) bo bi s (s.pc + (bd ++ 0#2).signExtend 64) ∧
    BranchesOn (.bca bo bi bd) bo bi s ((bd ++ 0#2).signExtend 64)) ∧
  ∀ (s : State) (bo bi : BitVec 5) (k : Int), -2 ^ 13 ≤ k → k < 2 ^ 13 →
    BranchesOn (.bc bo bi (bdOfTarget (s.pc + BitVec.ofInt 64 (4 * k)) s.pc)) bo bi s (s.pc + BitVec.ofInt 64 (4 * k)) ∧
    BranchesOn (.bca bo bi (bdOfAddress (BitVec.ofInt 64 (4 * k)))) bo bi s (BitVec.ofInt 64 (4 * k))

/-- `bclr` for every BO, BI, BH, CR and LR (R186, R187). The meanings of BO, and that every other BO, `bclr 0,0,0`
included, is an invalid form, are the spec's decision D5 (notes/assumptions/17.md); the XL layout, the extended opcode
and the ignored BH are PRESUMED (notes/assumptions/10.md). -/
def Obligations.BranchToLinkRegister : Prop :=
  (∀ (bo bi : BitVec 5) (bh : BitVec 2),
    Encodes (0x4C000020 ||| fieldAt bo 21 ||| fieldAt bi 16 ||| fieldAt bh 11) (.bclr bo bi bh)) ∧
  ∀ (bo bi : BitVec 5) (bh : BitVec 2) (s : State),
    BranchesOn (.bclr bo bi bh) bo bi s (s.lr - BitVec.ofNat 64 (s.lr.toNat % 4))

/-! ## Compares -/

/-- `cmp` (R195, R197): signed, into field BF, nothing else changed. L = 0 compares the low-order words (PRESUMED,
notes/assumptions/12.md). The places of BF and L and the result in field BF are PRESUMED too (conflict C12,
notes/assumptions/12.md); the low-order bit of the field is 0 by the spec's decision D29 (notes/assumptions/23.md). -/
def Obligations.CompareRegisters : Prop :=
  (∀ (bf : BitVec 3) (l : BitVec 1) (ra rb : RegNum),
    Encodes (0x7C000000 ||| fieldAt bf 23 ||| fieldAt l 21 ||| fieldAt ra 16 ||| fieldAt rb 11) (.cmp bf l ra rb)) ∧
  ∀ (bf : BitVec 3) (ra rb : RegNum) (s : State),
    (∃ c, exec (.cmp bf 1 ra rb) s = .next { s with cr := c, pc := s.pc + 4 } ∧
      ComparesInto s.cr c bf (s.readGpr ra).toInt (s.readGpr rb).toInt) ∧
    (∃ c, exec (.cmp bf 0 ra rb) s = .next { s with cr := c, pc := s.pc + 4 } ∧
      ComparesInto s.cr c bf ((s.readGpr ra).extractLsb' 0 32).toInt ((s.readGpr rb).extractLsb' 0 32).toInt)

/-- `cmpi` (R196, R197): as `cmp`, with SI sign-extended. L = 0 compares the low-order word (PRESUMED). The places of BF
and L and the result in field BF are PRESUMED too (conflict C12, notes/assumptions/12.md); the low-order bit of the
field is 0 by the spec's decision D29 (notes/assumptions/23.md). -/
def Obligations.CompareImmediate : Prop :=
  (∀ (bf : BitVec 3) (l : BitVec 1) (ra : RegNum) (si : BitVec 16),
    Encodes (0x2C000000 ||| fieldAt bf 23 ||| fieldAt l 21 ||| fieldAt ra 16 ||| fieldAt si 0) (.cmpi bf l ra si)) ∧
  ∀ (bf : BitVec 3) (ra : RegNum) (si : BitVec 16) (s : State),
    (∃ c, exec (.cmpi bf 1 ra si) s = .next { s with cr := c, pc := s.pc + 4 } ∧
      ComparesInto s.cr c bf (s.readGpr ra).toInt si.toInt) ∧
    (∃ c, exec (.cmpi bf 0 ra si) s = .next { s with cr := c, pc := s.pc + 4 } ∧
      ComparesInto s.cr c bf ((s.readGpr ra).extractLsb' 0 32).toInt si.toInt)

/-- A branch after a compare into the same field (R198, R126, R128): bit 4f is a < b, 4f + 1 is a > b, 4f + 2 is a = b
(conflict C8, notes/assumptions/25.md). The result in field BF is PRESUMED (notes/assumptions/12.md), the meanings of BO
= 12 and 4 are the spec's decision D5 (notes/assumptions/17.md); beq and bne written without a field name field 0 (D30). -/
def Obligations.BranchAfterCompare : Prop :=
  ∀ (bf : BitVec 3) (ra rb : RegNum) (bd : BitVec 14) (s t : State) (a b : Int),
    a = (s.readGpr ra).toInt → b = (s.readGpr rb).toInt → exec (.cmp bf 1 ra rb) s = .next t →
    exec (asmBeq bd bf) t = .next { t with pc := if a = b then t.pc + bdDisp bd else t.pc + 4 } ∧
    exec (asmBne bd bf) t = .next { t with pc := if a = b then t.pc + 4 else t.pc + bdDisp bd } ∧
    exec (.bc 12 (crFieldBit bf 0) bd) t = .next { t with pc := if a < b then t.pc + bdDisp bd else t.pc + 4 } ∧
    exec (.bc 12 (crFieldBit bf 1) bd) t = .next { t with pc := if b < a then t.pc + bdDisp bd else t.pc + 4 } ∧
    exec (.bc 4 (crFieldBit bf 0) bd) t = .next { t with pc := if b ≤ a then t.pc + bdDisp bd else t.pc + 4 } ∧
    exec (.bc 4 (crFieldBit bf 1) bd) t = .next { t with pc := if a ≤ b then t.pc + bdDisp bd else t.pc + 4 } ∧
    (bf = 0 → exec (asmBeq bd) t = .next { t with pc := if a = b then t.pc + bdDisp bd else t.pc + 4 } ∧
      exec (asmBne bd) t = .next { t with pc := if a = b then t.pc + 4 else t.pc + bdDisp bd })

/-! ## System call, the optional instructions, extended mnemonics -/

/-- `sc` (45 R200, 60 R211; the spec's decision D12): SRR0 takes the address after it, the pc the vector, nothing else
changes. That LEV has no effect is PRESUMED (notes/assumptions/11.md). -/
def Obligations.SystemCall : Prop :=
  ∀ (lev : BitVec 7) (s : State), exec (.sc lev) s = .next { s with srr0 := s.pc + 4, pc := 0x0000000000000C00 }

/-- What follows an `sc` under each shape of `SyscallService` (R202, the spec's decisions D12 and D13,
notes/assumptions/8.md): the run ends, the service's registers and memory with the pc at SRR0, or the vector. -/
def Obligations.SyscallServiceShapes : Prop :=
  ∀ (s t : State) (lev : BitVec 7), fetchDecode s = .ok (.sc lev) →
    t = { s with srr0 := s.pc + 4, pc := 0x0000000000000C00 } →
    runStep .halt s = .ended t ∧ runStep .handler s = .running t ∧
    ∀ f : State → State, runStep (.service f) s = .running { t with gpr := (f t).gpr, mem := (f t).mem, pc := t.srr0 }

/-- The ends of a run (R203, R214): the normal end is an `sc` under `halt`; a fault leaves the state before the
instruction; no run is refused. These ends are the spec's decision D13; that `runUnder` applies `SyscallService` after
the step of the `sc` is the model's choice (notes/assumptions/8.md), the state kept beside a fault is DEDUCED
(notes/assumptions/27.md). -/
def Obligations.RunsEndAsNamed : Prop :=
  ∀ (service : SyscallService) (k : Nat) (s : State),
    (∀ t, runUnder service k s = .ended t →
      service = .halt ∧ ∃ u lev, fetchDecode u = .ok (.sc lev) ∧ step u = .next t) ∧
    (∀ t f, runUnder service k s = .faulted t f → step t = .fault f) ∧
    (∀ t r, runUnder service k s ≠ .refused t r)

/-- `mtspr` and `mfspr` (46 R205, R206; PRESUMED, notes/assumptions/13.md). -/
def Obligations.MoveToAndFromLinkRegister : Prop :=
  (∀ r : RegNum, EncodesOptional (0x7C0803A6 ||| fieldAt r 21) (.mtspr r) ∧
    EncodesOptional (0x7C0802A6 ||| fieldAt r 21) (.mfspr r)) ∧
  ∀ (r : RegNum) (s : State),
    exec (.mtspr r) s = .next { s with lr := s.readGpr r, pc := s.pc + 4 } ∧
    exec (.mfspr r) s = .next { s.writeGpr r s.lr with pc := s.pc + 4 }

/-- `rldicr` (46 R207; PRESUMED, notes/assumptions/13.md), bit by bit: rotated left SH, the bits below position ME
cleared. -/
def Obligations.RotateDoublewordAndClearRight : Prop :=
  (∀ (ra rs : RegNum) (sh me : BitVec 6),
    EncodesOptional (0x78000004 ||| fieldAt rs 21 ||| fieldAt ra 16 ||| fieldAt (sh.extractLsb' 0 5) 11 |||
      fieldAt (me.extractLsb' 0 5) 6 ||| fieldAt (me.extractLsb' 5 1) 5 ||| fieldAt (sh.extractLsb' 5 1) 1)
      (.rldicr ra rs sh me)) ∧
  ∀ (ra rs : RegNum) (sh me : BitVec 6) (s : State), ∃ v : Word,
    exec (.rldicr ra rs sh me) s = .next { s.writeGpr ra v with pc := s.pc + 4 } ∧
    ∀ q < 64, v.getLsbD q =
      ((s.readGpr rs).getLsbD ((q + 64 - sh.toNat) % 64) && decide (63 - me.toNat ≤ q))

/-- The extended mnemonics and the no-op (R110, R114 to R121, R123, R127): what each leaves in its target, and that the
no-ops leave nothing; `blr` goes to LR with its two low-order bits cleared. `sldi` rests on `rldicr`, whose meaning is
PRESUMED (R207, notes/assumptions/13.md), and the word of `blr` on the PRESUMED XL layout (notes/assumptions/10.md).
That `blr` is `bclr 20,0,0` is the spec's decision D5 (conflict C7, notes/assumptions/17.md); that `lis`, and `subis`
with Ry = 0, shift the immediate is its decision D28 (conflict C2, notes/assumptions/25.md). -/
def Obligations.ExtendedMnemonicsCompute : Prop :=
  ∀ (rx ry rz : RegNum) (v : BitVec 16) (k : Int) (n : BitVec 5) (m : BitVec 6) (s : State),
    exec (asmLi rx v) s = .next { s.writeGpr rx (BitVec.ofInt 64 v.toInt) with pc := s.pc + 4 } ∧
    exec (asmLis rx v) s = .next { s.writeGpr rx (BitVec.ofInt 64 (v.toInt * 65536)) with pc := s.pc + 4 } ∧
    exec (asmMr rx ry) s = .next { s.writeGpr rx (s.readGpr ry) with pc := s.pc + 4 } ∧
    exec (asmSub rx ry rz) s = .next { s.writeGpr rx (s.readGpr ry - s.readGpr rz) with pc := s.pc + 4 } ∧
    exec (asmLa rx v ry) s =
      .next { s.writeGpr rx ((if ry = 0 then 0 else s.readGpr ry) + BitVec.ofInt 64 v.toInt) with pc := s.pc + 4 } ∧
    (-32767 ≤ k → k ≤ 32768 →
      exec (asmSubi rx ry (BitVec.ofInt 16 k)) s =
        .next { s.writeGpr rx ((if ry = 0 then 0 else s.readGpr ry) - BitVec.ofInt 64 k) with pc := s.pc + 4 } ∧
      exec (asmSubis rx ry (BitVec.ofInt 16 k)) s =
        .next { s.writeGpr rx ((if ry = 0 then 0 else s.readGpr ry) - BitVec.ofInt 64 (k * 65536)) with pc := s.pc + 4 }) ∧
    exec (asmSlwi rx ry n) s =
      .next { s.writeGpr rx (0#32 ++ ((s.readGpr ry).extractLsb' 0 32 <<< n.toNat)) with pc := s.pc + 4 } ∧
    exec (asmSldi rx ry m) s = .next { s.writeGpr rx (s.readGpr ry <<< m.toNat) with pc := s.pc + 4 } ∧
    exec asmNop s = .next { s with pc := s.pc + 4 } ∧ exec asmXnop s = .next { s with pc := s.pc + 4 } ∧
    (∃ t, exec asmBlr s = .next { s with pc := t } ∧ t.toNat = s.lr.toNat / 4 * 4) ∧
    encode s.params.poBc asmNop = 0x60000000 ∧ encode s.params.poBc asmXnop = 0x68000000 ∧
    encode s.params.poBc asmBlr = 0x4E800020
end

