-- ==== Sys2Proof/Laws/Fields.lean ====
section
/-! SUPPORT. Fields placed in a word and read back, and words under a mask: what the encoder and decoder are made of. -/

namespace Sys2Proof.Laws

theorem or_and_mask (x y m : InstrWord) : (x ||| y) &&& m = (x &&& m) ||| (y &&& m) := by
  apply BitVec.eq_of_getLsbD_eq
  intro j _
  simp [Bool.and_or_distrib_right]

theorem getLsbD_place {n : Nat} (f : BitVec n) (b j : Nat) (hj : j < 32) :
    (place f b).getLsbD j = (decide (31 - b ≤ j) && f.getLsbD (j - (31 - b))) := by
  simp only [place, BitVec.getLsbD_shiftLeft, BitVec.getLsbD_setWidth]
  by_cases h : j < 31 - b
  · simp [h, Nat.not_le.mpr h]
  · simp [hj, h, Nat.not_lt.mp h, Nat.lt_of_le_of_lt (Nat.sub_le j (31 - b)) hj]

theorem place_and_full {n : Nat} (f : BitVec n) (b : Nat) (m : InstrWord)
    (h : m.extractLsb' (31 - b) n = BitVec.allOnes n) : place f b &&& m = place f b := by
  apply BitVec.eq_of_getLsbD_eq
  intro j hj
  rw [BitVec.getLsbD_and, getLsbD_place f b j hj]
  by_cases h1 : 31 - b ≤ j
  · by_cases h2 : j - (31 - b) < n
    · have hm := congrArg (·.getLsbD (j - (31 - b))) h
      simp [h2, Nat.add_sub_cancel' h1] at hm
      simp [hm]
    · simp [BitVec.getLsbD_of_ge f _ (Nat.not_lt.mp h2)]
  · simp [h1]

theorem place_and_none {n : Nat} (f : BitVec n) (b : Nat) (m : InstrWord)
    (h : m.extractLsb' (31 - b) n = 0#n) : place f b &&& m = 0 := by
  apply BitVec.eq_of_getLsbD_eq
  intro j hj
  rw [BitVec.getLsbD_and, getLsbD_place f b j hj]
  by_cases h1 : 31 - b ≤ j
  · by_cases h2 : j - (31 - b) < n
    · have hm := congrArg (·.getLsbD (j - (31 - b))) h
      simp [h2, Nat.add_sub_cancel' h1] at hm
      simp [hm]
    · simp [BitVec.getLsbD_of_ge f _ (Nat.not_lt.mp h2)]
  · simp [h1]

theorem field_or (x y : InstrWord) (a b : Nat) : field (x ||| y) a b = field x a b ||| field y a b := by
  apply BitVec.eq_of_getLsbD_eq
  intro j _
  simp [field, Bool.and_or_distrib_left]

theorem field_and (x y : InstrWord) (a b : Nat) : field (x &&& y) a b = field x a b &&& field y a b := by
  apply BitVec.eq_of_getLsbD_eq
  intro j hj
  simp [field, hj]

theorem getLsbD_field (w : InstrWord) (a b j : Nat) (hj : j < b - a + 1) :
    (field w a b).getLsbD j = w.getLsbD (31 - b + j) := by
  simp only [field, BitVec.getLsbD_extractLsb', hj, decide_true, Bool.true_and]

theorem field_place_same {n : Nat} (f : BitVec n) (a b : Nat) (hn : b - a + 1 = n) (hb : b ≤ 31) :
    field (place f b) a b = f.setWidth (b - a + 1) := by
  apply BitVec.eq_of_getLsbD_eq
  intro j hj
  rw [getLsbD_field _ _ _ _ hj, BitVec.getLsbD_setWidth, getLsbD_place _ _ _ (by omega)]
  simp [Nat.le_of_lt_succ hj]

theorem field_place_apart {n : Nat} (f : BitVec n) (a b c : Nat) (h : (a ≤ b ∧ b ≤ 31 ∧ c ≤ 31) ∧ (c < a ∨ b + n ≤ c)) :
    field (place f c) a b = 0#(b - a + 1) := by
  apply BitVec.eq_of_getLsbD_eq
  intro j hj
  rw [getLsbD_field _ _ _ _ hj, getLsbD_place _ _ _ (by omega)]
  by_cases h1 : 31 - c ≤ 31 - b + j
  · rw [BitVec.getLsbD_of_ge f _ (by omega)]
    simp
  · simp [h1]

/-- The two parts of a six-bit number put together again. -/
theorem split_six (x : BitVec 6) : (x.extractLsb' 5 1 ++ x.extractLsb' 0 5 : BitVec 6) = x := by
  revert x
  decide

/-- BF, the reserved bit and L each at their own place. -/
theorem place_compareField (bf : BitVec 3) (l : BitVec 1) :
    place (compareField bf l) 10 = place bf 8 ||| place l 10 := by
  revert bf l
  decide

end Sys2Proof.Laws
end

