-- ==== Sys2Proof/Laws/Decode.lean ====
section
/-! SUPPORT. What the decoder can answer: the row that matches, if one does, and no other (30_encoding R99, R100). -/

namespace Sys2Proof.Laws

/-- Two rows that no word matches both of: they fix some bit to different values. -/
abbrev Apart (r q : Row) : Prop := r.mask &&& q.mask &&& (r.pattern ^^^ q.pattern) ≠ 0

theorem fixedRows_apart : fixedRows.Pairwise Apart := by decide

theorem conditionalRows_apart : ∀ poBc, (conditionalRows poBc).Pairwise Apart := by decide

theorem fixedRows_apart_conditionalRows : ∀ poBc, freePrimaryOpcode poBc = true →
    ∀ r ∈ fixedRows, ∀ q ∈ conditionalRows poBc, Apart r q := by decide

/-- A `PO_BC` unused otherwise keeps the set decodable (30_encoding R96, D4). -/
theorem rows_apart {poBc : BitVec 6} (hp : freePrimaryOpcode poBc = true) : (opcodeTable poBc).Pairwise Apart :=
  List.pairwise_append.mpr ⟨fixedRows_apart, conditionalRows_apart poBc, fixedRows_apart_conditionalRows poBc hp⟩

theorem not_both_of_apart {r q : Row} {w : InstrWord} (h : Apart r q) (hr : r.matchesWord w = true)
    (hq : q.matchesWord w = true) : False := by
  apply h
  have hr := beq_iff_eq.mp hr
  have hq := beq_iff_eq.mp hq
  rw [← hr, ← hq]
  apply BitVec.eq_of_getLsbD_eq
  intro j _
  simp
  intro h1 h2
  simp [h1, h2]

theorem find_of_matches {l : List Row} {r : Row} {w : InstrWord} (hl : l.Pairwise Apart) (hr : r ∈ l)
    (hm : r.matchesWord w = true) : l.find? (·.matchesWord w) = some r := by
  induction l with
  | nil => cases hr
  | cons q rest ih =>
    obtain ⟨hq, hrest⟩ := List.pairwise_cons.mp hl
    rcases List.mem_cons.mp hr with rfl | hin
    · simp [hm]
    · have hno : q.matchesWord w = false := by
        by_contra hc
        exact not_both_of_apart (hq r hin) (by simpa using hc) hm
      simp [hno, ih hrest hin]

/-- The decoder on a word that matches a row of the table. -/
theorem decode_of_row {poBc : BitVec 6} (hp : freePrimaryOpcode poBc = true) {r : Row} {w : InstrWord}
    (hr : r ∈ opcodeTable poBc) (hm : r.matchesWord w = true) (ext : Bool) :
    decode poBc ext w = if r.optional && !ext then .error (.extRefOff w) else .ok (r.build w) := by
  simp only [decode, find_of_matches (rows_apart hp) hr hm]

/-- The decoder on a word that matches no row. -/
theorem decode_of_no_row {poBc : BitVec 6} {w : InstrWord} (h : ∀ r ∈ opcodeTable poBc, r.matchesWord w = false)
    (ext : Bool) : decode poBc ext w = .error (.noRow w) := by
  have hf : (opcodeTable poBc).find? (·.matchesWord w) = none := List.find?_eq_none.mpr (by simpa using h)
  simp only [decode, hf]

/-- Everything the decoder can answer: a matching row's instruction, or one of the two errors. -/
theorem decode_cases (poBc : BitVec 6) (ext : Bool) (w : InstrWord) :
    (∃ r ∈ opcodeTable poBc, r.matchesWord w = true ∧ (r.optional && !ext) = false ∧
      decode poBc ext w = .ok (r.build w)) ∨
    (∃ r ∈ opcodeTable poBc, r.matchesWord w = true ∧ (r.optional && !ext) = true ∧
      decode poBc ext w = .error (.extRefOff w)) ∨
    ((∀ r ∈ opcodeTable poBc, r.matchesWord w = false) ∧ decode poBc ext w = .error (.noRow w)) := by
  cases hf : (opcodeTable poBc).find? (·.matchesWord w) with
  | none => exact .inr (.inr ⟨by simpa using List.find?_eq_none.mp hf, by simp only [decode, hf]⟩)
  | some r =>
    have hr := List.mem_of_find?_eq_some hf
    have hm : r.matchesWord w = true := List.find?_some (p := fun q : Row => q.matchesWord w) hf
    cases hx : (r.optional && !ext)
    · exact .inl ⟨r, hr, hm, hx, by simp [decode, hf, hx]⟩
    · exact .inr (.inl ⟨r, hr, hm, hx, by simp [decode, hf, hx]⟩)

/-- A word that does not decode is named by the error. -/
theorem decode_error_word {poBc : BitVec 6} {ext : Bool} {w : InstrWord} {e : DecodeError}
    (h : decode poBc ext w = .error e) : e.word = w := by
  rcases decode_cases poBc ext w with ⟨r, _, _, _, hd⟩ | ⟨r, _, _, _, hd⟩ | ⟨_, hd⟩ <;> rw [hd] at h <;> cases h <;> rfl

/-- What a matching word says of each of its fields. -/
theorem field_of_matches {r : Row} {w : InstrWord} (hm : r.matchesWord w = true) (a b : Nat) :
    field w a b &&& field r.mask a b = field r.pattern a b := by
  rw [← field_and, beq_iff_eq.mp hm]

end Sys2Proof.Laws
end

