-- ==== Sys2Proof/Laws/Flags.lean ====
section
/-! SUPPORT. The Condition Register: what writing a field leaves in it and in the others, and what a compare code says. -/

namespace Sys2Proof.Laws
open Sys2Proof.Machine

/-- The field written holds what was written. -/
theorem crField_setCrField_same (cr : BitVec 32) (bf : BitVec 3) (c : BitVec 4) :
    crField (setCrField cr bf c) bf = c := by
  obtain ⟨k, rfl⟩ : ∃ k : Fin 8, bf = BitVec.ofNat 3 k := ⟨⟨bf.toNat, bf.isLt⟩, by simp⟩
  apply BitVec.eq_of_getLsbD_eq
  intro j hj
  simp only [crField, setCrField, crFieldShift]
  fin_cases k <;> interval_cases j <;> simp [BitVec.getElem_shiftLeft]

/-- Every other field is as before. -/
theorem crField_setCrField_other {bf f : BitVec 3} (h : f ≠ bf) (cr : BitVec 32) (c : BitVec 4) :
    crField (setCrField cr bf c) f = crField cr f := by
  obtain ⟨k, rfl⟩ : ∃ k : Fin 8, bf = BitVec.ofNat 3 k := ⟨⟨bf.toNat, bf.isLt⟩, by simp⟩
  obtain ⟨l, rfl⟩ : ∃ l : Fin 8, f = BitVec.ofNat 3 l := ⟨⟨f.toNat, f.isLt⟩, by simp⟩
  apply BitVec.eq_of_getLsbD_eq
  intro j hj
  simp only [crField, setCrField, crFieldShift]
  fin_cases k <;> fin_cases l <;>
    first | exact absurd rfl h | (interval_cases j <;> simp [BitVec.getElem_shiftLeft])

/-- The code of a compare, in terms of the signed values. -/
theorem compareCode_eq (a b : Word) : compareCode a b =
    if a.toInt < b.toInt then 0b1000 else if b.toInt < a.toInt then 0b0100 else 0b0010 := by
  simp only [compareCode, BitVec.slt, decide_eq_true_eq]

end Sys2Proof.Laws
end

