-- ==== Sys2Proof/Laws/Memory.lean ====
section
/-! SUPPORT. Memory keeps its canonical form under every write, a byte reads back as written, and every other byte is
left alone (20_memory R53, R54). -/

namespace Sys2Proof.Laws
open Sys2Proof.Machine

theorem wfFrom_mono {m : Memory} {lo lo' : Nat} (h : lo' ≤ lo) (hm : m.wfFrom lo = true) : m.wfFrom lo' = true := by
  cases m with
  | nil => rfl
  | cons c rest =>
    simp only [Memory.wfFrom, Bool.and_eq_true, decide_eq_true_eq] at hm ⊢
    exact ⟨⟨⟨h.trans hm.1.1.1, hm.1.1.2⟩, hm.1.2⟩, hm.2⟩

theorem consCell_wfFrom {m : Memory} {lo a : Nat} {v : Byte} (hlo : lo ≤ a) (ha : a < 2 ^ 64)
    (hm : m.wfFrom (a + 1) = true) : (Memory.consCell a v m).wfFrom lo = true := by
  unfold Memory.consCell
  split
  · exact wfFrom_mono (by omega) hm
  · rename_i hv
    simp only [Memory.wfFrom, Bool.and_eq_true, decide_eq_true_eq]
    exact ⟨⟨⟨hlo, ha⟩, hv⟩, hm⟩

theorem write_wfFrom {m : Memory} {lo a : Nat} (v : Byte) (hlo : lo ≤ a) (ha : a < 2 ^ 64)
    (hm : m.wfFrom lo = true) : (m.write a v).wfFrom lo = true := by
  induction m generalizing lo with
  | nil => exact consCell_wfFrom hlo ha rfl
  | cons c rest ih =>
    obtain ⟨k, b⟩ := c
    have hcons := hm
    simp only [Memory.wfFrom, Bool.and_eq_true, decide_eq_true_eq] at hm
    unfold Memory.write
    split
    · rename_i hak
      refine consCell_wfFrom hlo ha ?_
      simp only [Memory.wfFrom, Bool.and_eq_true, decide_eq_true_eq]
      exact ⟨⟨⟨hak, hm.1.1.2⟩, hm.1.2⟩, hm.2⟩
    · split
      · rename_i _ heq
        subst heq
        exact consCell_wfFrom hlo ha hm.2
      · rename_i h1 h2
        simp only [Memory.wfFrom, Bool.and_eq_true, decide_eq_true_eq]
        exact ⟨⟨hm.1.1, hm.1.2⟩, ih (by omega) hm.2⟩

/-- One byte written keeps the canonical form. -/
theorem write_wf {m : Memory} {a : Nat} (v : Byte) (ha : a < 2 ^ 64) (hm : m.wf = true) : (m.write a v).wf = true :=
  write_wfFrom v (Nat.zero_le a) ha hm

/-- A stored value keeps the canonical form. -/
theorem store_wf {m : Memory} (a : Word) (n : Nat) (v : BitVec (8 * n)) (hm : m.wf = true) :
    (m.store a n v).wf = true := by
  induction n generalizing m a with
  | zero => exact hm
  | succ n ih => exact ih (a + 1) _ (write_wf _ a.isLt hm)

theorem read_below {m : Memory} {lo a : Nat} (hm : m.wfFrom lo = true) (h : a < lo) :
    m.read a = Config.unlistedByte := by
  cases m with
  | nil => rfl
  | cons c rest =>
    simp only [Memory.wfFrom, Bool.and_eq_true, decide_eq_true_eq] at hm
    unfold Memory.read
    rw [if_pos (by omega)]

theorem read_consCell {m : Memory} {a : Nat} (v : Byte) (x : Nat) (hm : m.wfFrom (a + 1) = true) :
    (Memory.consCell a v m).read x = if x = a then v else m.read x := by
  unfold Memory.consCell
  split
  · rename_i hv
    split
    · rename_i hx
      rw [hv, hx]
      exact read_below hm (Nat.lt_succ_self a)
    · rfl
  · simp only [Memory.read]
    split
    · rename_i hx
      rw [if_neg (by omega), read_below hm (by omega)]
    · rfl

theorem read_write_from {m : Memory} {lo : Nat} (a : Nat) (v : Byte) (x : Nat) (hm : m.wfFrom lo = true) :
    (m.write a v).read x = if x = a then v else m.read x := by
  induction m generalizing lo with
  | nil => exact read_consCell v x rfl
  | cons c rest ih =>
    obtain ⟨k, b⟩ := c
    simp only [Memory.wfFrom, Bool.and_eq_true, decide_eq_true_eq] at hm
    unfold Memory.write
    split
    · rename_i hak
      refine read_consCell v x ?_
      simp only [Memory.wfFrom, Bool.and_eq_true, decide_eq_true_eq]
      exact ⟨⟨⟨hak, hm.1.1.2⟩, hm.1.2⟩, hm.2⟩
    · split
      · rename_i _ heq
        subst heq
        rw [read_consCell v x hm.2]
        split
        · rfl
        · rename_i hx
          conv => rhs; unfold Memory.read
          split
          · rename_i hlt
            exact read_below hm.2 (by omega)
          · rfl
      · rename_i h1 h2
        simp only [Memory.read]
        rw [ih hm.2]
        split <;> split <;> simp_all
        all_goals omega

/-- A byte of memory after a byte was written: the byte written at its address, the byte before at every other. -/
theorem read_write {m : Memory} (a : Nat) (v : Byte) (x : Nat) (hm : m.wf = true) :
    (m.write a v).read x = if x = a then v else m.read x := read_write_from a v x hm

/-- A byte outside a stored value is left alone. -/
theorem read_store_other {m : Memory} (a : Word) (n : Nat) (v : BitVec (8 * n)) (x : Word) (hm : m.wf = true)
    (hx : ∀ i < n, x ≠ a + BitVec.ofNat 64 i) : (m.store a n v).read x.toNat = m.read x.toNat := by
  induction n generalizing m a with
  | zero => rfl
  | succ n ih =>
    have hxa : x.toNat ≠ a.toNat := fun h => hx 0 (Nat.succ_pos n) (by simpa using BitVec.eq_of_toNat_eq h)
    have h := ih (a + 1) (v.extractLsb' 8 (8 * n)) (write_wf (v.extractLsb' 0 8) a.isLt hm)
      (fun i hi => by
        have := hx (i + 1) (Nat.succ_lt_succ hi)
        rwa [BitVec.ofNat_add, BitVec.add_comm (BitVec.ofNat 64 i), ← BitVec.add_assoc] at this)
    rw [Memory.store, h, read_write _ _ _ hm, if_neg hxa]

/-- Byte `i` of a stored value reads back, counted from the least significant, as long as no byte overlaps another. -/
theorem read_store_same {m : Memory} (a : Word) (n : Nat) (v : BitVec (8 * n)) (i : Nat) (hm : m.wf = true)
    (hn : n ≤ 2 ^ 64) (hi : i < n) :
    (m.store a n v).read (a + BitVec.ofNat 64 i).toNat = v.extractLsb' (8 * i) 8 := by
  induction n generalizing m a i with
  | zero => omega
  | succ n ih =>
    rw [Memory.store]
    cases i with
    | zero =>
      rw [BitVec.ofNat_eq_ofNat, BitVec.add_zero, read_store_other _ _ _ _ (write_wf _ a.isLt hm), read_write _ _ _ hm]
      · simp
      · intro j hj h
        have h2 := congrArg BitVec.toNat h
        have ha := a.isLt
        simp only [BitVec.toNat_add, BitVec.toNat_ofNat] at h2
        omega
    | succ i =>
      have h := ih (a + 1) (v.extractLsb' 8 (8 * n)) i (write_wf (v.extractLsb' 0 8) a.isLt hm) (by omega) (by omega)
      rw [BitVec.ofNat_add, BitVec.add_comm (BitVec.ofNat 64 i), ← BitVec.add_assoc]
      rw [show (BitVec.ofNat 64 1 : Word) = 1 from rfl, h]
      apply BitVec.eq_of_getLsbD_eq
      intro j hj
      simp only [BitVec.getLsbD_extractLsb', hj, decide_true, Bool.true_and]
      rw [decide_eq_true (by omega), Bool.true_and]
      congr 1
      omega

/-- Bit `j` of a value read is bit `j mod 8` of its byte `j / 8`. -/
theorem load_getLsbD (m : Memory) (a : Word) (n j : Nat) (hj : j < 8 * n) :
    (m.load a n).getLsbD j = (m.read (a + BitVec.ofNat 64 (j / 8)).toNat).getLsbD (j % 8) := by
  induction n generalizing a j with
  | zero => omega
  | succ n ih =>
    show (m.load (a + 1) n ++ m.read a.toNat : BitVec (8 * n + 8)).getLsbD j = _
    rw [BitVec.getLsbD_append]
    by_cases h : j < 8
    · simp [h, Nat.div_eq_of_lt h, Nat.mod_eq_of_lt h]
    · rw [if_neg h, ih _ _ (by omega), show (j - 8) % 8 = j % 8 by omega]
      have h1 : a + 1 + BitVec.ofNat 64 ((j - 8) / 8) = a + BitVec.ofNat 64 (j / 8) := by
        rw [show j / 8 = 1 + (j - 8) / 8 by omega, BitVec.ofNat_add]
        bv_omega
      rw [h1]

/-- A four-byte read, byte by byte. -/
theorem load_four (m : Memory) (a : Word) :
    m.load a 4 = m.read (a + 3).toNat ++ m.read (a + 2).toNat ++ m.read (a + 1).toNat ++ m.read a.toNat := by
  simp only [Memory.load]
  rw [show a + 1 + 1 = a + 2 by bv_omega, show a + 2 + 1 = a + 3 by bv_omega]
  congr 3
  exact BitVec.zero_width_append _ _

end Sys2Proof.Laws
end

