-- ==== Sys2Proof/Laws/State.lean ====
section
/-! SUPPORT. One lemma for each field of the state under each update, and the registers as written and read. -/

namespace Sys2Proof.Laws
open Sys2Proof.Machine

@[simp] theorem writeGpr_gpr (s : State) (r : RegNum) (v : Word) : (s.writeGpr r v).gpr = s.gpr.set r.toNat v r.isLt := rfl
@[simp] theorem writeGpr_cr (s : State) (r : RegNum) (v : Word) : (s.writeGpr r v).cr = s.cr := rfl
@[simp] theorem writeGpr_lr (s : State) (r : RegNum) (v : Word) : (s.writeGpr r v).lr = s.lr := rfl
@[simp] theorem writeGpr_srr0 (s : State) (r : RegNum) (v : Word) : (s.writeGpr r v).srr0 = s.srr0 := rfl
@[simp] theorem writeGpr_pc (s : State) (r : RegNum) (v : Word) : (s.writeGpr r v).pc = s.pc := rfl
@[simp] theorem writeGpr_mem (s : State) (r : RegNum) (v : Word) : (s.writeGpr r v).mem = s.mem := rfl
@[simp] theorem writeGpr_params (s : State) (r : RegNum) (v : Word) : (s.writeGpr r v).params = s.params := rfl

@[simp] theorem advance_gpr (s : State) : (s.advance).gpr = s.gpr := rfl
@[simp] theorem advance_cr (s : State) : (s.advance).cr = s.cr := rfl
@[simp] theorem advance_lr (s : State) : (s.advance).lr = s.lr := rfl
@[simp] theorem advance_srr0 (s : State) : (s.advance).srr0 = s.srr0 := rfl
@[simp] theorem advance_pc (s : State) : (s.advance).pc = s.pc + 4 := rfl
@[simp] theorem advance_mem (s : State) : (s.advance).mem = s.mem := rfl
@[simp] theorem advance_params (s : State) : (s.advance).params = s.params := rfl

@[simp] theorem jump_gpr (s : State) (t : Word) : (s.jump t).gpr = s.gpr := rfl
@[simp] theorem jump_cr (s : State) (t : Word) : (s.jump t).cr = s.cr := rfl
@[simp] theorem jump_lr (s : State) (t : Word) : (s.jump t).lr = s.lr := rfl
@[simp] theorem jump_srr0 (s : State) (t : Word) : (s.jump t).srr0 = s.srr0 := rfl
@[simp] theorem jump_pc (s : State) (t : Word) : (s.jump t).pc = t := rfl
@[simp] theorem jump_mem (s : State) (t : Word) : (s.jump t).mem = s.mem := rfl
@[simp] theorem jump_params (s : State) (t : Word) : (s.jump t).params = s.params := rfl

@[simp] theorem takeSystemCall_gpr (s : State) : (takeSystemCall s).gpr = s.gpr := rfl
@[simp] theorem takeSystemCall_cr (s : State) : (takeSystemCall s).cr = s.cr := rfl
@[simp] theorem takeSystemCall_lr (s : State) : (takeSystemCall s).lr = s.lr := rfl
@[simp] theorem takeSystemCall_srr0 (s : State) : (takeSystemCall s).srr0 = s.pc + 4 := rfl
@[simp] theorem takeSystemCall_pc (s : State) : (takeSystemCall s).pc = scVector := rfl
@[simp] theorem takeSystemCall_mem (s : State) : (takeSystemCall s).mem = s.mem := rfl
@[simp] theorem takeSystemCall_params (s : State) : (takeSystemCall s).params = s.params := rfl

@[simp] theorem returnFromSystemCall_gpr (s : State) : (returnFromSystemCall s).gpr = s.gpr := rfl
@[simp] theorem returnFromSystemCall_cr (s : State) : (returnFromSystemCall s).cr = s.cr := rfl
@[simp] theorem returnFromSystemCall_lr (s : State) : (returnFromSystemCall s).lr = s.lr := rfl
@[simp] theorem returnFromSystemCall_srr0 (s : State) : (returnFromSystemCall s).srr0 = s.srr0 := rfl
@[simp] theorem returnFromSystemCall_pc (s : State) : (returnFromSystemCall s).pc = s.srr0 := rfl
@[simp] theorem returnFromSystemCall_mem (s : State) : (returnFromSystemCall s).mem = s.mem := rfl
@[simp] theorem returnFromSystemCall_params (s : State) : (returnFromSystemCall s).params = s.params := rfl

@[simp] theorem readGpr_advance (s : State) (r : RegNum) : s.advance.readGpr r = s.readGpr r := rfl
@[simp] theorem readGpr_jump (s : State) (t : Word) (r : RegNum) : (s.jump t).readGpr r = s.readGpr r := rfl
@[simp] theorem byteAt_advance (s : State) (a : Word) : s.advance.byteAt a = s.byteAt a := rfl
@[simp] theorem byteAt_jump (s : State) (t a : Word) : (s.jump t).byteAt a = s.byteAt a := rfl
@[simp] theorem byteAt_writeGpr (s : State) (r : RegNum) (v a : Word) : (s.writeGpr r v).byteAt a = s.byteAt a := rfl
@[simp] theorem permits_advance (s : State) : s.advance.permits = s.permits := rfl
@[simp] theorem permits_jump (s : State) (t : Word) : (s.jump t).permits = s.permits := rfl
@[simp] theorem permits_writeGpr (s : State) (r : RegNum) (v : Word) : (s.writeGpr r v).permits = s.permits := rfl

theorem readGpr_writeGpr (s : State) (r q : RegNum) (v : Word) :
    (s.writeGpr r v).readGpr q = if r = q then v else s.readGpr q := by
  simp only [State.writeGpr, State.readGpr, Vector.getElem_set, BitVec.toNat_inj]

@[simp] theorem readGpr_writeGpr_same (s : State) (r : RegNum) (v : Word) : (s.writeGpr r v).readGpr r = v := by
  simp [readGpr_writeGpr]

theorem readGpr_writeGpr_other {s : State} {r q : RegNum} (v : Word) (h : r ≠ q) :
    (s.writeGpr r v).readGpr q = s.readGpr q := by
  simp [readGpr_writeGpr, h]

end Sys2Proof.Laws
end

