-- ==== Sys2Proof/Laws/Ops.lean ====
section
/-! SUPPORT. What each shared operation can answer, said once: the meanings are one call of these. -/

namespace Sys2Proof.Laws
open Sys2Proof.Machine

theorem memRead_ok {s : State} {kind : AccessKind} {a : Word} {n : Nat} (h : s.permits kind a n = true) :
    memRead s kind a n = .ok (s.mem.load a n) := if_pos h

theorem memRead_error {s : State} {kind : AccessKind} {a : Word} {n : Nat} (h : s.permits kind a n = false) :
    memRead s kind a n = .error (.memFault a n kind) := if_neg (by simp [h])

theorem memWrite_ok {s : State} {a : Word} {n : Nat} (v : BitVec (8 * n)) (h : s.permits .write a n = true) :
    memWrite s a n v = .ok { s with mem := s.mem.store a n v } := if_pos h

theorem memWrite_error {s : State} {a : Word} {n : Nat} (v : BitVec (8 * n)) (h : s.permits .write a n = false) :
    memWrite s a n v = .error (.memFault a n .write) := if_neg (by simp [h])

/-- A load: the value if the access is permitted, else the fault. -/
theorem loadResult_eq (s : State) (rt : RegNum) (ea : Word) (n : Nat) (extend : BitVec (8 * n) → Word) :
    loadResult s rt ea n extend = if s.permits .read ea n then writeResult s rt (extend (s.mem.load ea n))
      else .fault (.memFault ea n .read) := by
  by_cases h : s.permits .read ea n = true <;> simp [loadResult, memRead, h]

/-- A store: the bytes stored if the access is permitted, else the fault. -/
theorem storeResult_eq (s : State) (ea : Word) (n : Nat) (v : BitVec (8 * n)) :
    storeResult s ea n v = if s.permits .write ea n then .next { s with mem := s.mem.store ea n v }.advance
      else .fault (.memFault ea n .write) := by
  by_cases h : s.permits .write ea n = true <;> simp [storeResult, memWrite, h]

/-- A store with update: the bytes stored and RA written if the access is permitted, else the fault. -/
theorem storeUpdateResult_eq (s : State) (ra : RegNum) (ea : Word) (n : Nat) (v : BitVec (8 * n)) :
    storeUpdateResult s ra ea n v = if s.permits .write ea n then writeResult { s with mem := s.mem.store ea n v } ra ea
      else .fault (.memFault ea n .write) := by
  by_cases h : s.permits .write ea n = true <;> simp [storeUpdateResult, memWrite, h]

/-- Everything a conditional branch can do (43 R187). -/
theorem conditionalResult_cases (s : State) (form : InstrWord) (bo bi : BitVec 5) (target : Word) :
    (boTest bo = none ∧ conditionalResult s form bo bi target = .fault (.invalidForm form)) ∨
    ∃ test, boTest bo = some test ∧
      ((testHolds test (crBit s.cr bi) = true ∧ conditionalResult s form bo bi target = .next (s.jump target)) ∨
       (testHolds test (crBit s.cr bi) = false ∧ conditionalResult s form bo bi target = .next s.advance)) := by
  unfold conditionalResult
  cases hb : boTest bo with
  | none => exact .inl ⟨rfl, rfl⟩
  | some test => cases ht : testHolds test (crBit s.cr bi) <;> simp_all [branchResult]

/-- An access of bytes 0 to `n - 1` has all its bytes backed. -/
theorem backedAll_iff (s : State) (a : Word) (n : Nat) :
    s.backedAll a n = true ↔ ∀ i < n, s.backed (a + BitVec.ofNat 64 i) = true := by
  simp [State.backedAll]

/-- A permitted access has all its bytes backed. -/
theorem backedAll_of_permits {s : State} {kind : AccessKind} {a : Word} {n : Nat} (h : s.permits kind a n = true) :
    s.backedAll a n = true := by
  cases kind <;> simp_all [State.permits]

/-- Storing changes only memory, and there only the bytes stored. -/
theorem byteAt_store_other {s : State} (a : Word) (n : Nat) (v : BitVec (8 * n)) (x : Word) (hm : s.mem.wf = true)
    (hx : ∀ i < n, x ≠ a + BitVec.ofNat 64 i) :
    State.byteAt { s with mem := s.mem.store a n v } x = s.byteAt x := read_store_other a n v x hm hx

end Sys2Proof.Laws
end

