-- ==== Sys2Proof/Laws/PerInstr.lean ====
section
/-! SUPPORT. One lemma for each instruction: its encoding is a word of its own row of the opcode table, and the row
builds the instruction back from it. -/

namespace Sys2Proof.Laws

/-- The word of `i` matches a row of the table that builds `i` from it and stands behind `EXT_REF` if `i` does. -/
def OnItsRow.Statement (i : Instr) : Prop :=
  ∀ poBc, ∃ r ∈ opcodeTable poBc,
    r.matchesWord (encode poBc i) = true ∧ r.build (encode poBc i) = i ∧ r.optional = i.needsExtRef

theorem OnItsRow.add (rt ra rb : RegNum) : OnItsRow.Statement (.add rt ra rb) := by
  refine fun _ => ⟨fixedRows[0], List.mem_append_left _ (List.getElem_mem _), beq_iff_eq.mpr ?_, ?_, rfl⟩
  · show xoForm .. &&& _ = _
    simp (disch := decide) only [xoForm, or_and_mask, place_and_full, place_and_none]
    decide
  · show Instr.add .. = _
    simp (disch := decide) only [encode, xoForm, field_or, field_place_same, field_place_apart]
    simp

theorem OnItsRow.addi (rt ra : RegNum) (si : BitVec 16) : OnItsRow.Statement (.addi rt ra si) := by
  refine fun _ => ⟨fixedRows[1], List.mem_append_left _ (List.getElem_mem _), beq_iff_eq.mpr ?_, ?_, rfl⟩
  · show dForm .. &&& _ = _
    simp (disch := decide) only [dForm, or_and_mask, place_and_full, place_and_none]
    decide
  · show Instr.addi .. = _
    simp (disch := decide) only [encode, dForm, field_or, field_place_same, field_place_apart]
    simp

theorem OnItsRow.addis (rt ra : RegNum) (si : BitVec 16) : OnItsRow.Statement (.addis rt ra si) := by
  refine fun _ => ⟨fixedRows[2], List.mem_append_left _ (List.getElem_mem _), beq_iff_eq.mpr ?_, ?_, rfl⟩
  · show dForm .. &&& _ = _
    simp (disch := decide) only [dForm, or_and_mask, place_and_full, place_and_none]
    decide
  · show Instr.addis .. = _
    simp (disch := decide) only [encode, dForm, field_or, field_place_same, field_place_apart]
    simp

theorem OnItsRow.and (ra rs rb : RegNum) : OnItsRow.Statement (.and ra rs rb) := by
  refine fun _ => ⟨fixedRows[3], List.mem_append_left _ (List.getElem_mem _), beq_iff_eq.mpr ?_, ?_, rfl⟩
  · show xForm .. &&& _ = _
    simp (disch := decide) only [xForm, or_and_mask, place_and_full, place_and_none]
    decide
  · show Instr.and .. = _
    simp (disch := decide) only [encode, xForm, field_or, field_place_same, field_place_apart]
    simp

theorem OnItsRow.andi (ra rs : RegNum) (ui : BitVec 16) : OnItsRow.Statement (.andi ra rs ui) := by
  refine fun _ => ⟨fixedRows[4], List.mem_append_left _ (List.getElem_mem _), beq_iff_eq.mpr ?_, ?_, rfl⟩
  · show dForm .. &&& _ = _
    simp (disch := decide) only [dForm, or_and_mask, place_and_full, place_and_none]
    decide
  · show Instr.andi .. = _
    simp (disch := decide) only [encode, dForm, field_or, field_place_same, field_place_apart]
    simp

theorem OnItsRow.extsw (ra rs : RegNum) : OnItsRow.Statement (.extsw ra rs) := by
  refine fun _ => ⟨fixedRows[5], List.mem_append_left _ (List.getElem_mem _), beq_iff_eq.mpr ?_, ?_, rfl⟩
  · show xForm .. &&& _ = _
    simp (disch := decide) only [xForm, or_and_mask, place_and_full, place_and_none]
    decide
  · show Instr.extsw .. = _
    simp (disch := decide) only [encode, xForm, field_or, field_place_same, field_place_apart]
    simp

theorem OnItsRow.nand (ra rs rb : RegNum) : OnItsRow.Statement (.nand ra rs rb) := by
  refine fun _ => ⟨fixedRows[6], List.mem_append_left _ (List.getElem_mem _), beq_iff_eq.mpr ?_, ?_, rfl⟩
  · show xForm .. &&& _ = _
    simp (disch := decide) only [xForm, or_and_mask, place_and_full, place_and_none]
    decide
  · show Instr.nand .. = _
    simp (disch := decide) only [encode, xForm, field_or, field_place_same, field_place_apart]
    simp

theorem OnItsRow.or (ra rs rb : RegNum) : OnItsRow.Statement (.or ra rs rb) := by
  refine fun _ => ⟨fixedRows[7], List.mem_append_left _ (List.getElem_mem _), beq_iff_eq.mpr ?_, ?_, rfl⟩
  · show xForm .. &&& _ = _
    simp (disch := decide) only [xForm, or_and_mask, place_and_full, place_and_none]
    decide
  · show Instr.or .. = _
    simp (disch := decide) only [encode, xForm, field_or, field_place_same, field_place_apart]
    simp

theorem OnItsRow.ori (ra rs : RegNum) (ui : BitVec 16) : OnItsRow.Statement (.ori ra rs ui) := by
  refine fun _ => ⟨fixedRows[8], List.mem_append_left _ (List.getElem_mem _), beq_iff_eq.mpr ?_, ?_, rfl⟩
  · show dForm .. &&& _ = _
    simp (disch := decide) only [dForm, or_and_mask, place_and_full, place_and_none]
    decide
  · show Instr.ori .. = _
    simp (disch := decide) only [encode, dForm, field_or, field_place_same, field_place_apart]
    simp

theorem OnItsRow.subf (rt ra rb : RegNum) : OnItsRow.Statement (.subf rt ra rb) := by
  refine fun _ => ⟨fixedRows[9], List.mem_append_left _ (List.getElem_mem _), beq_iff_eq.mpr ?_, ?_, rfl⟩
  · show xoForm .. &&& _ = _
    simp (disch := decide) only [xoForm, or_and_mask, place_and_full, place_and_none]
    decide
  · show Instr.subf .. = _
    simp (disch := decide) only [encode, xoForm, field_or, field_place_same, field_place_apart]
    simp

theorem OnItsRow.xor (ra rs rb : RegNum) : OnItsRow.Statement (.xor ra rs rb) := by
  refine fun _ => ⟨fixedRows[10], List.mem_append_left _ (List.getElem_mem _), beq_iff_eq.mpr ?_, ?_, rfl⟩
  · show xForm .. &&& _ = _
    simp (disch := decide) only [xForm, or_and_mask, place_and_full, place_and_none]
    decide
  · show Instr.xor .. = _
    simp (disch := decide) only [encode, xForm, field_or, field_place_same, field_place_apart]
    simp

theorem OnItsRow.xori (ra rs : RegNum) (ui : BitVec 16) : OnItsRow.Statement (.xori ra rs ui) := by
  refine fun _ => ⟨fixedRows[11], List.mem_append_left _ (List.getElem_mem _), beq_iff_eq.mpr ?_, ?_, rfl⟩
  · show dForm .. &&& _ = _
    simp (disch := decide) only [dForm, or_and_mask, place_and_full, place_and_none]
    decide
  · show Instr.xori .. = _
    simp (disch := decide) only [encode, dForm, field_or, field_place_same, field_place_apart]
    simp

theorem OnItsRow.ld (rt : RegNum) (ds : BitVec 14) (ra : RegNum) : OnItsRow.Statement (.ld rt ds ra) := by
  refine fun _ => ⟨fixedRows[12], List.mem_append_left _ (List.getElem_mem _), beq_iff_eq.mpr ?_, ?_, rfl⟩
  · show dsForm .. &&& _ = _
    simp (disch := decide) only [dsForm, or_and_mask, place_and_full, place_and_none]
    decide
  · show Instr.ld .. = _
    simp (disch := decide) only [encode, dsForm, field_or, field_place_same, field_place_apart]
    simp

theorem OnItsRow.lwz (rt : RegNum) (d : BitVec 16) (ra : RegNum) : OnItsRow.Statement (.lwz rt d ra) := by
  refine fun _ => ⟨fixedRows[13], List.mem_append_left _ (List.getElem_mem _), beq_iff_eq.mpr ?_, ?_, rfl⟩
  · show dForm .. &&& _ = _
    simp (disch := decide) only [dForm, or_and_mask, place_and_full, place_and_none]
    decide
  · show Instr.lwz .. = _
    simp (disch := decide) only [encode, dForm, field_or, field_place_same, field_place_apart]
    simp

theorem OnItsRow.std (rs : RegNum) (ds : BitVec 14) (ra : RegNum) : OnItsRow.Statement (.std rs ds ra) := by
  refine fun _ => ⟨fixedRows[14], List.mem_append_left _ (List.getElem_mem _), beq_iff_eq.mpr ?_, ?_, rfl⟩
  · show dsForm .. &&& _ = _
    simp (disch := decide) only [dsForm, or_and_mask, place_and_full, place_and_none]
    decide
  · show Instr.std .. = _
    simp (disch := decide) only [encode, dsForm, field_or, field_place_same, field_place_apart]
    simp

theorem OnItsRow.stw (rs : RegNum) (d : BitVec 16) (ra : RegNum) : OnItsRow.Statement (.stw rs d ra) := by
  refine fun _ => ⟨fixedRows[15], List.mem_append_left _ (List.getElem_mem _), beq_iff_eq.mpr ?_, ?_, rfl⟩
  · show dForm .. &&& _ = _
    simp (disch := decide) only [dForm, or_and_mask, place_and_full, place_and_none]
    decide
  · show Instr.stw .. = _
    simp (disch := decide) only [encode, dForm, field_or, field_place_same, field_place_apart]
    simp

theorem OnItsRow.stwu (rs : RegNum) (d : BitVec 16) (ra : RegNum) : OnItsRow.Statement (.stwu rs d ra) := by
  refine fun _ => ⟨fixedRows[16], List.mem_append_left _ (List.getElem_mem _), beq_iff_eq.mpr ?_, ?_, rfl⟩
  · show dForm .. &&& _ = _
    simp (disch := decide) only [dForm, or_and_mask, place_and_full, place_and_none]
    decide
  · show Instr.stwu .. = _
    simp (disch := decide) only [encode, dForm, field_or, field_place_same, field_place_apart]
    simp

theorem OnItsRow.lhz (rt : RegNum) (d : BitVec 16) (ra : RegNum) : OnItsRow.Statement (.lhz rt d ra) := by
  refine fun _ => ⟨fixedRows[17], List.mem_append_left _ (List.getElem_mem _), beq_iff_eq.mpr ?_, ?_, rfl⟩
  · show dForm .. &&& _ = _
    simp (disch := decide) only [dForm, or_and_mask, place_and_full, place_and_none]
    decide
  · show Instr.lhz .. = _
    simp (disch := decide) only [encode, dForm, field_or, field_place_same, field_place_apart]
    simp

theorem OnItsRow.lha (rt : RegNum) (d : BitVec 16) (ra : RegNum) : OnItsRow.Statement (.lha rt d ra) := by
  refine fun _ => ⟨fixedRows[18], List.mem_append_left _ (List.getElem_mem _), beq_iff_eq.mpr ?_, ?_, rfl⟩
  · show dForm .. &&& _ = _
    simp (disch := decide) only [dForm, or_and_mask, place_and_full, place_and_none]
    decide
  · show Instr.lha .. = _
    simp (disch := decide) only [encode, dForm, field_or, field_place_same, field_place_apart]
    simp

theorem OnItsRow.sth (rs : RegNum) (d : BitVec 16) (ra : RegNum) : OnItsRow.Statement (.sth rs d ra) := by
  refine fun _ => ⟨fixedRows[19], List.mem_append_left _ (List.getElem_mem _), beq_iff_eq.mpr ?_, ?_, rfl⟩
  · show dForm .. &&& _ = _
    simp (disch := decide) only [dForm, or_and_mask, place_and_full, place_and_none]
    decide
  · show Instr.sth .. = _
    simp (disch := decide) only [encode, dForm, field_or, field_place_same, field_place_apart]
    simp

theorem OnItsRow.lbz (rt : RegNum) (d : BitVec 16) (ra : RegNum) : OnItsRow.Statement (.lbz rt d ra) := by
  refine fun _ => ⟨fixedRows[20], List.mem_append_left _ (List.getElem_mem _), beq_iff_eq.mpr ?_, ?_, rfl⟩
  · show dForm .. &&& _ = _
    simp (disch := decide) only [dForm, or_and_mask, place_and_full, place_and_none]
    decide
  · show Instr.lbz .. = _
    simp (disch := decide) only [encode, dForm, field_or, field_place_same, field_place_apart]
    simp

theorem OnItsRow.stb (rs : RegNum) (d : BitVec 16) (ra : RegNum) : OnItsRow.Statement (.stb rs d ra) := by
  refine fun _ => ⟨fixedRows[21], List.mem_append_left _ (List.getElem_mem _), beq_iff_eq.mpr ?_, ?_, rfl⟩
  · show dForm .. &&& _ = _
    simp (disch := decide) only [dForm, or_and_mask, place_and_full, place_and_none]
    decide
  · show Instr.stb .. = _
    simp (disch := decide) only [encode, dForm, field_or, field_place_same, field_place_apart]
    simp

theorem OnItsRow.rlwinm (ra rs : RegNum) (sh mb me : BitVec 5) : OnItsRow.Statement (.rlwinm ra rs sh mb me) := by
  refine fun _ => ⟨fixedRows[22], List.mem_append_left _ (List.getElem_mem _), beq_iff_eq.mpr ?_, ?_, rfl⟩
  · show mForm .. &&& _ = _
    simp (disch := decide) only [mForm, or_and_mask, place_and_full, place_and_none]
    decide
  · show Instr.rlwinm .. = _
    simp (disch := decide) only [encode, mForm, field_or, field_place_same, field_place_apart]
    simp

theorem OnItsRow.sld (ra rs rb : RegNum) : OnItsRow.Statement (.sld ra rs rb) := by
  refine fun _ => ⟨fixedRows[23], List.mem_append_left _ (List.getElem_mem _), beq_iff_eq.mpr ?_, ?_, rfl⟩
  · show xForm .. &&& _ = _
    simp (disch := decide) only [xForm, or_and_mask, place_and_full, place_and_none]
    decide
  · show Instr.sld .. = _
    simp (disch := decide) only [encode, xForm, field_or, field_place_same, field_place_apart]
    simp

theorem OnItsRow.srd (ra rs rb : RegNum) : OnItsRow.Statement (.srd ra rs rb) := by
  refine fun _ => ⟨fixedRows[24], List.mem_append_left _ (List.getElem_mem _), beq_iff_eq.mpr ?_, ?_, rfl⟩
  · show xForm .. &&& _ = _
    simp (disch := decide) only [xForm, or_and_mask, place_and_full, place_and_none]
    decide
  · show Instr.srd .. = _
    simp (disch := decide) only [encode, xForm, field_or, field_place_same, field_place_apart]
    simp

theorem OnItsRow.srad (ra rs rb : RegNum) : OnItsRow.Statement (.srad ra rs rb) := by
  refine fun _ => ⟨fixedRows[25], List.mem_append_left _ (List.getElem_mem _), beq_iff_eq.mpr ?_, ?_, rfl⟩
  · show xForm .. &&& _ = _
    simp (disch := decide) only [xForm, or_and_mask, place_and_full, place_and_none]
    decide
  · show Instr.srad .. = _
    simp (disch := decide) only [encode, xForm, field_or, field_place_same, field_place_apart]
    simp

theorem OnItsRow.sradi (ra rs : RegNum) (sh : BitVec 6) : OnItsRow.Statement (.sradi ra rs sh) := by
  refine fun _ => ⟨fixedRows[26], List.mem_append_left _ (List.getElem_mem _), beq_iff_eq.mpr ?_, ?_, rfl⟩
  · show xsForm .. &&& _ = _
    simp (disch := decide) only [xsForm, or_and_mask, place_and_full, place_and_none]
    decide
  · show Instr.sradi .. = _
    simp (disch := decide) only [encode, xsForm, field_or, field_place_same, field_place_apart]
    simp [split_six]

theorem OnItsRow.b (li : BitVec 24) : OnItsRow.Statement (.b li) := by
  refine fun _ => ⟨fixedRows[27], List.mem_append_left _ (List.getElem_mem _), beq_iff_eq.mpr ?_, ?_, rfl⟩
  · show iForm .. &&& _ = _
    simp (disch := decide) only [iForm, or_and_mask, place_and_full, place_and_none]
    decide
  · show Instr.b .. = _
    simp (disch := decide) only [encode, iForm, field_or, field_place_same, field_place_apart]
    simp

theorem OnItsRow.ba (li : BitVec 24) : OnItsRow.Statement (.ba li) := by
  refine fun _ => ⟨fixedRows[28], List.mem_append_left _ (List.getElem_mem _), beq_iff_eq.mpr ?_, ?_, rfl⟩
  · show iForm .. &&& _ = _
    simp (disch := decide) only [iForm, or_and_mask, place_and_full, place_and_none]
    decide
  · show Instr.ba .. = _
    simp (disch := decide) only [encode, iForm, field_or, field_place_same, field_place_apart]
    simp

theorem OnItsRow.bl (li : BitVec 24) : OnItsRow.Statement (.bl li) := by
  refine fun _ => ⟨fixedRows[29], List.mem_append_left _ (List.getElem_mem _), beq_iff_eq.mpr ?_, ?_, rfl⟩
  · show iForm .. &&& _ = _
    simp (disch := decide) only [iForm, or_and_mask, place_and_full, place_and_none]
    decide
  · show Instr.bl .. = _
    simp (disch := decide) only [encode, iForm, field_or, field_place_same, field_place_apart]
    simp

theorem OnItsRow.bla (li : BitVec 24) : OnItsRow.Statement (.bla li) := by
  refine fun _ => ⟨fixedRows[30], List.mem_append_left _ (List.getElem_mem _), beq_iff_eq.mpr ?_, ?_, rfl⟩
  · show iForm .. &&& _ = _
    simp (disch := decide) only [iForm, or_and_mask, place_and_full, place_and_none]
    decide
  · show Instr.bla .. = _
    simp (disch := decide) only [encode, iForm, field_or, field_place_same, field_place_apart]
    simp

theorem OnItsRow.bc (bo bi : BitVec 5) (bd : BitVec 14) : OnItsRow.Statement (.bc bo bi bd) := by
  refine fun poBc => ⟨_, List.mem_append_right _ (List.mem_cons_self), beq_iff_eq.mpr ?_, ?_, rfl⟩
  · show bForm .. &&& _ = _
    simp (disch := decide) only [bForm, or_and_mask, place_and_full, place_and_none]
    revert poBc
    decide
  · show Instr.bc .. = _
    simp (disch := decide) only [encode, bForm, field_or, field_place_same, field_place_apart]
    simp

theorem OnItsRow.bca (bo bi : BitVec 5) (bd : BitVec 14) : OnItsRow.Statement (.bca bo bi bd) := by
  refine fun poBc => ⟨_, List.mem_append_right _ (List.mem_cons_of_mem _ List.mem_cons_self), beq_iff_eq.mpr ?_, ?_, rfl⟩
  · show bForm .. &&& _ = _
    simp (disch := decide) only [bForm, or_and_mask, place_and_full, place_and_none]
    revert poBc
    decide
  · show Instr.bca .. = _
    simp (disch := decide) only [encode, bForm, field_or, field_place_same, field_place_apart]
    simp

theorem OnItsRow.bclr (bo bi : BitVec 5) (bh : BitVec 2) : OnItsRow.Statement (.bclr bo bi bh) := by
  refine fun _ => ⟨fixedRows[31], List.mem_append_left _ (List.getElem_mem _), beq_iff_eq.mpr ?_, ?_, rfl⟩
  · show xlForm .. &&& _ = _
    simp (disch := decide) only [xlForm, or_and_mask, place_and_full, place_and_none]
    decide
  · show Instr.bclr .. = _
    simp (disch := decide) only [encode, xlForm, field_or, field_place_same, field_place_apart]
    simp

theorem OnItsRow.cmp (bf : BitVec 3) (l : BitVec 1) (ra rb : RegNum) : OnItsRow.Statement (.cmp bf l ra rb) := by
  refine fun _ => ⟨fixedRows[32], List.mem_append_left _ (List.getElem_mem _), beq_iff_eq.mpr ?_, ?_, rfl⟩
  · show xForm .. &&& _ = _
    simp (disch := decide) only [xForm, place_compareField, or_and_mask, place_and_full, place_and_none]
    decide
  · show Instr.cmp .. = _
    simp (disch := decide) only [encode, xForm, place_compareField, field_or, field_place_same, field_place_apart]
    simp

theorem OnItsRow.cmpi (bf : BitVec 3) (l : BitVec 1) (ra : RegNum) (si : BitVec 16) : OnItsRow.Statement (.cmpi bf l ra si) := by
  refine fun _ => ⟨fixedRows[33], List.mem_append_left _ (List.getElem_mem _), beq_iff_eq.mpr ?_, ?_, rfl⟩
  · show dForm .. &&& _ = _
    simp (disch := decide) only [dForm, place_compareField, or_and_mask, place_and_full, place_and_none]
    decide
  · show Instr.cmpi .. = _
    simp (disch := decide) only [encode, dForm, place_compareField, field_or, field_place_same, field_place_apart]
    simp

theorem OnItsRow.sc (lev : BitVec 7) : OnItsRow.Statement (.sc lev) := by
  refine fun _ => ⟨fixedRows[34], List.mem_append_left _ (List.getElem_mem _), beq_iff_eq.mpr ?_, ?_, rfl⟩
  · show scForm .. &&& _ = _
    simp (disch := decide) only [scForm, or_and_mask, place_and_full, place_and_none]
    decide
  · show Instr.sc .. = _
    simp (disch := decide) only [encode, scForm, field_or, field_place_same, field_place_apart]
    simp

theorem OnItsRow.mtspr (rs : RegNum) : OnItsRow.Statement (.mtspr rs) := by
  refine fun _ => ⟨fixedRows[35], List.mem_append_left _ (List.getElem_mem _), beq_iff_eq.mpr ?_, ?_, rfl⟩
  · show xfxForm .. &&& _ = _
    simp (disch := decide) only [xfxForm, or_and_mask, place_and_full, place_and_none]
    decide
  · show Instr.mtspr .. = _
    simp (disch := decide) only [encode, xfxForm, field_or, field_place_same, field_place_apart]
    simp

theorem OnItsRow.mfspr (rt : RegNum) : OnItsRow.Statement (.mfspr rt) := by
  refine fun _ => ⟨fixedRows[36], List.mem_append_left _ (List.getElem_mem _), beq_iff_eq.mpr ?_, ?_, rfl⟩
  · show xfxForm .. &&& _ = _
    simp (disch := decide) only [xfxForm, or_and_mask, place_and_full, place_and_none]
    decide
  · show Instr.mfspr .. = _
    simp (disch := decide) only [encode, xfxForm, field_or, field_place_same, field_place_apart]
    simp

theorem OnItsRow.rldicr (ra rs : RegNum) (sh me : BitVec 6) : OnItsRow.Statement (.rldicr ra rs sh me) := by
  refine fun _ => ⟨fixedRows[37], List.mem_append_left _ (List.getElem_mem _), beq_iff_eq.mpr ?_, ?_, rfl⟩
  · show mdForm .. &&& _ = _
    simp (disch := decide) only [mdForm, or_and_mask, place_and_full, place_and_none]
    decide
  · show Instr.rldicr .. = _
    simp (disch := decide) only [encode, mdForm, field_or, field_place_same, field_place_apart]
    simp [split_six]

end Sys2Proof.Laws
end

