-- ==== Sys2Proof/Laws/Step.lean ====
section
/-! SUPPORT. What a step can answer: it stops at the fetch, stops at the decoding, or runs the decoded instruction. -/

namespace Sys2Proof.Laws
open Sys2Proof.Machine

theorem fetch_ok {s : State} (h : s.backedAll s.pc 4 = true) : fetch s = .ok (s.mem.load s.pc 4) := if_pos h

theorem fetch_error {s : State} (h : s.backedAll s.pc 4 = false) : fetch s = .error (.memFault s.pc 4 .fetch) :=
  if_neg (by simp [State.permits, h])

/-- A step whose fetched word decodes runs that instruction. -/
theorem step_of_decode {s : State} {iw : InstrWord} {i : Instr} (hf : fetch s = .ok iw)
    (hd : decode s.params.poBc s.params.extRef iw = .ok i) : step s = exec i s := by
  simp only [step, fetchDecode, hf, hd]

/-- A step whose fetched word does not decode stops as illegal. -/
theorem step_of_illegal {s : State} {iw : InstrWord} {e : DecodeError} (hf : fetch s = .ok iw)
    (hd : decode s.params.poBc s.params.extRef iw = .error e) : step s = .fault (.illegalInstruction iw) := by
  simp only [step, fetchDecode, hf, hd, decode_error_word hd]

/-- Everything a step can do. -/
theorem step_cases (s : State) :
    (s.backedAll s.pc 4 = false ∧ step s = .fault (.memFault s.pc 4 .fetch)) ∨
    ∃ iw, fetch s = .ok iw ∧
      ((∃ e, decode s.params.poBc s.params.extRef iw = .error e ∧ step s = .fault (.illegalInstruction iw)) ∨
       ∃ i, decode s.params.poBc s.params.extRef iw = .ok i ∧ fetchDecode s = .ok i ∧ step s = exec i s) := by
  cases hb : s.backedAll s.pc 4 with
  | false => exact .inl ⟨rfl, by simp only [step, fetchDecode, fetch_error hb]⟩
  | true =>
    refine .inr ⟨_, fetch_ok hb, ?_⟩
    cases hd : decode s.params.poBc s.params.extRef (s.mem.load s.pc 4) with
    | error e => exact .inl ⟨e, rfl, step_of_illegal (fetch_ok hb) hd⟩
    | ok i => exact .inr ⟨i, rfl, by simp only [fetchDecode, fetch_ok hb, hd], step_of_decode (fetch_ok hb) hd⟩

/-- A step that answers a next state ran an instruction. -/
theorem exec_of_step_next {s t : State} (h : step s = .next t) :
    ∃ i, fetchDecode s = .ok i ∧ exec i s = .next t := by
  rcases step_cases s with ⟨_, hs⟩ | ⟨iw, _, ⟨e, _, hs⟩ | ⟨i, _, hfd, hs⟩⟩
  · rw [hs] at h; cases h
  · rw [hs] at h; cases h
  · exact ⟨i, hfd, hs ▸ h⟩

/-- A word stored where the next step fetches keeps memory canonical. -/
theorem storeAtPc_wf {s : State} (iw : InstrWord) (h : s.mem.wf = true) : (storeAtPc s iw).mem.wf = true :=
  store_wf s.pc 4 iw h

end Sys2Proof.Laws
end

