-- ==== Sys2Proof/Machine/Assembly.lean ====
section
/-! DEFINITION. The assembly line of an instruction: mnemonic and operands in the order of 30_encoding R113, written as
R112 shows. A branch operand is the target address. -/

namespace Sys2Proof.Machine

/-- A register operand is its bare number (R112). -/
def asmReg (r : RegNum) : String := toString r.toNat

/-- A mnemonic and its operands, separated by commas (R112). -/
def asmLine (mnemonic : String) (operands : List String) : String := mnemonic ++ " " ++ ",".intercalate operands

/-- A memory operand: displacement(base register) (R112). -/
def asmMem (disp : Int) (ra : RegNum) : String := toString disp ++ "(" ++ asmReg ra ++ ")"

/-- The assembly line of an instruction that stands at address `cia` (R113). -/
def toAssembly (cia : Word) (i : Instr) : String :=
  match i with
  | .add rt ra rb => asmLine "add" [asmReg rt, asmReg ra, asmReg rb]
  | .addi rt ra si => asmLine "addi" [asmReg rt, asmReg ra, toString si.toInt]
  | .addis rt ra si => asmLine "addis" [asmReg rt, asmReg ra, toString si.toInt]
  | .and ra rs rb => asmLine "and" [asmReg ra, asmReg rs, asmReg rb]
  | .andi ra rs ui => asmLine "andi" [asmReg ra, asmReg rs, toString ui.toNat]
  | .extsw ra rs => asmLine "extsw" [asmReg ra, asmReg rs]
  | .nand ra rs rb => asmLine "nand" [asmReg ra, asmReg rs, asmReg rb]
  | .or ra rs rb => asmLine "or" [asmReg ra, asmReg rs, asmReg rb]
  | .ori ra rs ui => asmLine "ori" [asmReg ra, asmReg rs, toString ui.toNat]
  | .subf rt ra rb => asmLine "subf" [asmReg rt, asmReg ra, asmReg rb]
  | .xor ra rs rb => asmLine "xor" [asmReg ra, asmReg rs, asmReg rb]
  | .xori ra rs ui => asmLine "xori" [asmReg ra, asmReg rs, toString ui.toNat]
  | .ld rt ds ra => asmLine "ld" [asmReg rt, asmMem (dsDisp ds).toInt ra]
  | .lwz rt d ra => asmLine "lwz" [asmReg rt, asmMem d.toInt ra]
  | .std rs ds ra => asmLine "std" [asmReg rs, asmMem (dsDisp ds).toInt ra]
  | .stw rs d ra => asmLine "stw" [asmReg rs, asmMem d.toInt ra]
  | .stwu rs d ra => asmLine "stwu" [asmReg rs, asmMem d.toInt ra]
  | .lhz rt d ra => asmLine "lhz" [asmReg rt, asmMem d.toInt ra]
  | .lha rt d ra => asmLine "lha" [asmReg rt, asmMem d.toInt ra]
  | .sth rs d ra => asmLine "sth" [asmReg rs, asmMem d.toInt ra]
  | .lbz rt d ra => asmLine "lbz" [asmReg rt, asmMem d.toInt ra]
  | .stb rs d ra => asmLine "stb" [asmReg rs, asmMem d.toInt ra]
  | .rlwinm ra rs sh mb me =>
    asmLine "rlwinm" [asmReg ra, asmReg rs, toString sh.toNat, toString mb.toNat, toString me.toNat]
  | .sld ra rs rb => asmLine "sld" [asmReg ra, asmReg rs, asmReg rb]
  | .srd ra rs rb => asmLine "srd" [asmReg ra, asmReg rs, asmReg rb]
  | .srad ra rs rb => asmLine "srad" [asmReg ra, asmReg rs, asmReg rb]
  | .sradi ra rs sh => asmLine "sradi" [asmReg ra, asmReg rs, toString sh.toNat]
  | .b li => asmLine "b" [toString (cia + liDisp li).toNat]
  | .ba li => asmLine "ba" [toString (liDisp li).toNat]
  | .bl li => asmLine "bl" [toString (cia + liDisp li).toNat]
  | .bla li => asmLine "bla" [toString (liDisp li).toNat]
  | .bc bo bi bd => asmLine "bc" [toString bo.toNat, toString bi.toNat, toString (cia + bdDisp bd).toNat]
  | .bca bo bi bd => asmLine "bca" [toString bo.toNat, toString bi.toNat, toString (bdDisp bd).toNat]
  | .bclr bo bi bh => asmLine "bclr" [toString bo.toNat, toString bi.toNat, toString bh.toNat]
  | .cmp bf l ra rb => asmLine "cmp" [toString bf.toNat, toString l.toNat, asmReg ra, asmReg rb]
  | .cmpi bf l ra si => asmLine "cmpi" [toString bf.toNat, toString l.toNat, asmReg ra, toString si.toInt]
  | .sc lev => asmLine "sc" [toString lev.toNat]
  | .mtspr rs => asmLine "mtspr" ["8", asmReg rs]
  | .mfspr rt => asmLine "mfspr" [asmReg rt, "8"]
  | .rldicr ra rs sh me => asmLine "rldicr" [asmReg ra, asmReg rs, toString sh.toNat, toString me.toNat]

end Sys2Proof.Machine
end

