-- ==== Sys2Proof/Tests/Slice0.lean ====
section
/-! SUPPORT. Tests of the model. Words and results are those of 95_test_vectors.md unless a comment names another rule;
the witnesses show, for each statement with hypotheses, a state and operands that meet them. -/

namespace Sys2Proof.Tests
open Sys2Proof.Machine

/-- The reset state with some registers set. -/
def withRegs (regs : List (RegNum × Word)) : State := regs.foldl (fun s p => s.writeGpr p.1 p.2) State.reset

/-- A state with some bytes written from an address on. -/
def withBytes (s : State) (a : Nat) (bytes : List Byte) : State :=
  { s with mem := (bytes.zipIdx a).foldl (fun m c => m.write c.2 c.1) s.mem }

/-- The state after a step of the word `iw` at the pc. -/
def after (s : State) (iw : InstrWord) : Option State := nextState (step (storeAtPc s iw))

/-- General register `r` after a step of the word `iw` from registers `regs`. -/
def gprAfter (regs : List (RegNum × Word)) (iw : InstrWord) (r : RegNum) : Option Word :=
  (after (withRegs regs) iw).map (·.readGpr r)

/-- R4 = 0x2000 and the bytes of section 3.2. -/
def loadState : State := withBytes (withRegs [(4, 0x2000)]) 0x2000 [0x88, 0x77, 0x66, 0x55, 0x44, 0x33, 0x22, 0x11]

/-- R5 and memory of section 3.2's stores, with R4 as given. -/
def storeState (r4 : Word) : State :=
  withBytes (withRegs [(4, r4), (5, 0x0102030405060708)]) 0x2000 (List.replicate 8 0xEE)

/-- The doubleword at 0x2000 and R4 after a step. -/
def stored (s : State) (iw : InstrWord) : Option (Word × Word) :=
  (after s iw).map fun t => (t.mem.load 0x2000 8, t.readGpr 4)

/-- The reset state with CR as given. -/
def withCr (cr : BitVec 32) (regs : List (RegNum × Word)) : State := { withRegs regs with cr := cr }

/-- The decoder and the encoder with `PO_BC` at its default, which section 2 takes. -/
abbrev decode16 (extRef : Bool) (iw : InstrWord) : Except DecodeError Instr := decode Config.defaultPoBc extRef iw
abbrev encode16 (i : Instr) : InstrWord := encode Config.defaultPoBc i

/-- A machine with storage from 0x1000 to 0x2FFF, aligned data only, and `EXT_REF` false. -/
def narrow : State := { State.reset with params := ⟨[⟨0x1000, 0x2000⟩], .refuse, false, 16⟩ }

/-- The reset state with `PO_BC` = 63, which R95 leaves unused too. -/
def otherPoBc : State := { State.reset with params := { State.reset.params with poBc := 63 } }

/-! ## Well-formedness -/

theorem test_wellFormed_stwu : (Instr.stwu 5 4 0).wellFormed = false ∧ (Instr.stwu 5 4 1).wellFormed = true := by decide
theorem test_wellFormed_bc : (Instr.bc 0 0 2).wellFormed = false ∧ (Instr.bc 12 30 2).wellFormed = true := by decide
theorem test_wellFormed_bca : (Instr.bca 16 0 2).wellFormed = false ∧ (Instr.bca 4 30 2).wellFormed = true := by decide
theorem test_wellFormed_bclr : (Instr.bclr 5 0 0).wellFormed = false ∧ (Instr.bclr 20 0 0).wellFormed = true := by decide
/-- Exactly these ten values of BO have a meaning (R187). -/
theorem test_bo_meanings : (List.range 32).filter (fun n => (boTest (BitVec.ofNat 5 n)).isSome) =
    [4, 12, 20, 21, 22, 23, 28, 29, 30, 31] := by decide

/-! ## Decoding -/
theorem test_decode_add : decode16 false 0x7C642A14 = .ok (.add 3 4 5) := by decide
theorem test_decode_addi : decode16 false 0x38430019 = .ok (.addi 2 3 25) := by decide
theorem test_decode_addis : decode16 false 0x3D20000A = .ok (.addis 9 0 10) := by decide
theorem test_decode_and : decode16 false 0x7C832838 = .ok (.and 3 4 5) := by decide
theorem test_decode_andi : decode16 false 0x708300FF = .ok (.andi 3 4 255) := by decide
theorem test_decode_extsw : decode16 false 0x7C8307B4 = .ok (.extsw 3 4) := by decide
theorem test_decode_nand : decode16 false 0x7C832BB8 = .ok (.nand 3 4 5) := by decide
theorem test_decode_or : decode16 false 0x7CC33378 = .ok (.or 3 6 6) := by decide
theorem test_decode_ori : decode16 false 0x60C30001 = .ok (.ori 3 6 1) := by decide
theorem test_decode_subf : decode16 false 0x7C642850 = .ok (.subf 3 4 5) := by decide
theorem test_decode_xor : decode16 false 0x7C832A78 = .ok (.xor 3 4 5) := by decide
theorem test_decode_xori : decode16 false 0x6883FFFF = .ok (.xori 3 4 0xFFFF) := by decide
theorem test_decode_ld : decode16 false 0xE8B70020 = .ok (.ld 5 8 23) := by decide
theorem test_decode_lwz : decode16 false 0x80640008 = .ok (.lwz 3 8 4) := by decide
theorem test_decode_std : decode16 false 0xF8B70020 = .ok (.std 5 8 23) := by decide
theorem test_decode_stw : decode16 false 0x90640008 = .ok (.stw 3 8 4) := by decide
theorem test_decode_stwu : decode16 false 0x9421FFF0 = .ok (.stwu 1 0xFFF0 1) := by decide
theorem test_decode_lhz : decode16 false 0xA0640002 = .ok (.lhz 3 2 4) := by decide
theorem test_decode_lha : decode16 false 0xA89F0001 = .ok (.lha 4 1 31) := by decide
theorem test_decode_sth : decode16 false 0xB0640002 = .ok (.sth 3 2 4) := by decide
theorem test_decode_lbz : decode16 false 0x88620000 = .ok (.lbz 3 0 2) := by decide
theorem test_decode_stb : decode16 false 0x98C40008 = .ok (.stb 6 8 4) := by decide
theorem test_decode_rlwinm : decode16 false 0x54832706 = .ok (.rlwinm 3 4 4 28 3) := by decide
theorem test_decode_sld : decode16 false 0x7C832836 = .ok (.sld 3 4 5) := by decide
theorem test_decode_srd : decode16 false 0x7C832C36 = .ok (.srd 3 4 5) := by decide
theorem test_decode_srad : decode16 false 0x7C832E34 = .ok (.srad 3 4 5) := by decide
theorem test_decode_sradi : decode16 false 0x7C83FE76 = .ok (.sradi 3 4 63) := by decide
theorem test_decode_b : decode16 false 0x4BFFFFFC = .ok (.b 0xFFFFFF) := by decide
theorem test_decode_ba : decode16 false 0x48000102 = .ok (.ba 0x40) := by decide
theorem test_decode_bl : decode16 false 0x48000021 = .ok (.bl 8) := by decide
theorem test_decode_bla : decode16 false 0x48000103 = .ok (.bla 0x40) := by decide
theorem test_decode_bc : decode16 false 0x409EFFF8 = .ok (.bc 4 30 0x3FFE) := by decide
theorem test_decode_bca : decode16 false 0x419E0042 = .ok (.bca 12 30 0x10) := by decide
theorem test_decode_bclr : decode16 false 0x4E801820 = .ok (.bclr 20 0 3) := by decide
theorem test_decode_cmp : decode16 false 0x7FA32000 = .ok (.cmp 7 1 3 4) := by decide
theorem test_decode_cmpi : decode16 false 0x2F890004 = .ok (.cmpi 7 0 9 4) := by decide
theorem test_decode_sc : decode16 false 0x44000FE2 = .ok (.sc 127) := by decide
theorem test_decode_mtspr : decode16 true 0x7C6803A6 = .ok (.mtspr 3) ∧ decode16 false 0x7C6803A6 = .error (.extRefOff 0x7C6803A6) := by decide
theorem test_decode_mfspr : decode16 true 0x7C6802A6 = .ok (.mfspr 3) ∧ decode16 false 0x7C6802A6 = .error (.extRefOff 0x7C6802A6) := by decide
theorem test_decode_rldicr : decode16 true 0x79291764 = .ok (.rldicr 9 9 2 61) ∧ decode16 false 0x79291764 = .error (.extRefOff 0x79291764) := by decide
/-- Every value but the 22 that R95 uses for other instructions is free for `PO_BC` (R96, D4). -/
theorem test_free_primary_opcodes : (List.range 64).filter (fun n => !freePrimaryOpcode (BitVec.ofNat 6 n)) =
    [11, 14, 15, 17, 18, 19, 21, 24, 26, 28, 30, 31, 32, 34, 36, 37, 38, 40, 42, 44, 58, 62] := by decide
/-- `PO_BC` moves `bc` and `bca` and nothing else (R96). -/
theorem test_decode_other_poBc : decode 63 false 0xFC9EFFF8 = .ok (.bc 4 30 0x3FFE) ∧
    decode 63 false 0xFD9E0042 = .ok (.bca 12 30 0x10) ∧ decode 63 false 0x409EFFF8 = .error (.noRow 0x409EFFF8) ∧
    decode 63 false 0x7C642A14 = .ok (.add 3 4 5) := by decide
theorem test_bc_other_poBc : (after { otherPoBc with cr := 2 } 0xFD9E0008).map (·.pc) = some 0x1008 ∧
    faultOf (step (storeAtPc otherPoBc 0x419E0008)) = some (.illegalInstruction 0x419E0008) ∧
    faultOf (step (storeAtPc otherPoBc 0xFC000008)) = some (.invalidForm 0xFC000008) := by decide
theorem test_decode_bytes : decodeBytes 16 false [0x14, 0x2A, 0x64, 0x7C] = some (.add 3 4 5) ∧
    decodeBytes 16 false [0x14, 0x2A, 0x64] = none := by decide
theorem test_decode_table_word : decodeTableWord 32 0x7C642A14 = some (.add 3 4 5) ∧ decodeTableWord 32 0 = none := by decide
/-- The words of section 2.1 that are no instructions. -/
theorem test_illegal_words : ([0x00000000, 0xFFFFFFFF, 0x7C642A15, 0x7C642E14, 0x5483402F, 0x7C8317B4, 0x7C6429D2,
    0xE8B70021, 0x4E800021, 0x41820009, 0x4C000420, 0x44000000, 0x2FC90004, 0x7C6903A6] : List InstrWord).all
    (fun w => decide (decode16 true w = .error (.noRow w))) = true := by decide
/-- The invalid forms of section 2.1. -/
theorem test_invalid_forms : ([0x4C000020, 0x40000008, 0x94A00004] : List InstrWord).all
    (fun w => decide (faultOf (step (storeAtPc State.reset w)) = some (.invalidForm w))) = true := by decide
theorem test_withFetchWord : nextState (step ((withRegs [(4, 2), (5, 3)]).withFetchWord 32 0x7C642A14)) =
    nextState (exec (.add 3 4 5) ((withRegs [(4, 2), (5, 3)]).withFetchWord 32 0x7C642A14)) := by decide

/-! ## One step of each instruction -/
theorem test_add_wraps : gprAfter [(4, -1), (5, 1)] 0x7C642A14 3 = some (0) := by decide
theorem test_add_names_r0 : gprAfter [(0, 7), (5, 1)] 0x7C602A14 3 = some (8) := by decide
theorem test_subf_subtrahend : gprAfter [(4, 5), (5, 3)] 0x7C642850 3 = some (0xFFFFFFFFFFFFFFFE) := by decide
theorem test_addi_zero_base : gprAfter [(0, 0x1234)] 0x3860FFFF 3 = some (-1) := by decide
theorem test_addi_wraps : gprAfter [(4, -1)] 0x38647FFF 3 = some (0x7FFE) := by decide
theorem test_addis_zero_base : gprAfter [(0, 9)] 0x3C608000 3 = some (0xFFFFFFFF80000000) := by decide
theorem test_addis_wraps : gprAfter [(4, 0xFFFFFFFFFFFF0000)] 0x3C640001 3 = some (0) := by decide
theorem test_and : gprAfter [(4, 0x0FF00FF00FF00FF0), (5, 0xFF00FF00FF00FF00)] 0x7C832838 3 = some (0x0F000F000F000F00) := by decide
theorem test_nand_is_not : gprAfter [(4, 0x00000000FFFFFFFF)] 0x7C8323B8 3 = some (0xFFFFFFFF00000000) := by decide
theorem test_or_moves : gprAfter [(6, 0x123456789ABCDEF0)] 0x7CC33378 3 = some (0x123456789ABCDEF0) := by decide
theorem test_xor : gprAfter [(4, 0xFF00FF00FF00FF00), (5, 0x0FF00FF00FF00FF0)] 0x7C832A78 3 = some (0xF0F0F0F0F0F0F0F0) := by decide
theorem test_ori_zero_extends : gprAfter [] 0x60838000 3 = some (0x8000) := by decide
theorem test_xori : gprAfter [(4, -1)] 0x6883FFFF 3 = some (0xFFFFFFFFFFFF0000) := by decide
theorem test_extsw_negative : gprAfter [(4, 0x80000000)] 0x7C8307B4 3 = some (0xFFFFFFFF80000000) := by decide
theorem test_extsw_positive : gprAfter [(4, 0xFFFFFFFF7FFFFFFF)] 0x7C8307B4 3 = some (0x7FFFFFFF) := by decide
theorem test_rlwinm : gprAfter [(4, 0xAAAAAAAA12345678)] 0x5483402E 3 = some (0x34567800) := by decide
theorem test_rlwinm_wrapped : gprAfter [(4, 0x12345678)] 0x54832706 3 = some (0x2345678120000001) := by decide
theorem test_sld_seven_bits : gprAfter [(4, 1), (5, 0xFFFFFFFFFFFFFF84)] 0x7C832836 3 = some (0x10) := by decide
theorem test_sld_by_64 : gprAfter [(4, 0x8000000000000001), (5, 0x40)] 0x7C832836 3 = some (0) := by decide
theorem test_srd_by_0 : gprAfter [(4, 0x8000000000000001)] 0x7C832C36 3 = some (0x8000000000000001) := by decide
theorem test_srd_by_63 : gprAfter [(4, 0x8000000000000001), (5, 0x3F)] 0x7C832C36 3 = some (1) := by decide
theorem test_srad_by_4 : gprAfter [(4, 0x8000000000000001), (5, 4)] 0x7C832E34 3 = some (0xF800000000000000) := by decide
theorem test_srad_by_64 : gprAfter [(4, 0x8000000000000001), (5, 0x40)] 0x7C832E34 3 = some (-1) := by decide
theorem test_sradi_rounds_down : gprAfter [(4, -12)] 0x7C831674 3 = some (-3) := by decide
theorem test_sradi_by_32 : gprAfter [(4, 0x8000000000000001)] 0x7C830676 3 = some (0xFFFFFFFF80000000) := by decide
theorem test_rldicr : gprAfter [(4, 0xC000000000000003)] 0x78831764 3 = some (0xC) := by decide
theorem test_rldicr_by_63 : gprAfter [(4, 3)] 0x7883F806 3 = some (0x8000000000000000) := by decide
theorem test_andi_leaves_cr : (after (withCr 0x12345678 [(4, -1)]) 0x7083FFFF).map (fun t => (t.readGpr 3, t.cr)) =
    some (0xFFFF, 0x12345678) := by decide
theorem test_ori_at_the_top : (after { State.reset with pc := 0xFFFFFFFFFFFFFFFC } 0x60000000).map (·.pc) = some 0 := by decide
theorem test_ld : (after loadState 0xE8640000).map (·.readGpr 3) = some 0x1122334455667788 := by decide
theorem test_lwz_misaligned : (after loadState 0x80640001).map (·.readGpr 3) = some 0x44556677 := by decide
theorem test_lhz : (after loadState 0xA0640000).map (·.readGpr 3) = some 0x7788 := by decide
theorem test_lha_positive : (after loadState 0xA8640000).map (·.readGpr 3) = some 0x7788 := by decide
theorem test_lbz : (after loadState 0x88640000).map (·.readGpr 3) = some 0x88 := by decide
theorem test_lha_negative : (after (withBytes loadState 0x2000 [0x88, 0x87]) 0xA8640000).map (·.readGpr 3) =
    some 0xFFFFFFFFFFFF8788 := by decide
theorem test_ld_zero_base : (after (loadState.writeGpr 0 0x9999) 0xE8602000).map (·.readGpr 3) = some 0x1122334455667788 := by
  decide
theorem test_std : stored (storeState 0x2000) 0xF8A40000 = some (0x0102030405060708, 0x2000) := by decide
theorem test_stw : stored (storeState 0x2000) 0x90A40000 = some (0xEEEEEEEE05060708, 0x2000) := by decide
theorem test_sth : stored (storeState 0x2000) 0xB0A40000 = some (0xEEEEEEEEEEEE0708, 0x2000) := by decide
theorem test_stb : stored (storeState 0x2000) 0x98A40000 = some (0xEEEEEEEEEEEEEE08, 0x2000) := by decide
theorem test_stwu : stored (storeState 0x2008) 0x94A4FFF8 = some (0xEEEEEEEE05060708, 0x2000) := by decide
theorem test_stwu_old_value : stored (storeState 0x2008) 0x9484FFF8 = some (0xEEEEEEEE00002008, 0x2000) := by decide
theorem test_lbz_outside : faultOf (step (storeAtPc narrow 0x8860FFFF)) = some (.memFault 0xFFFFFFFFFFFFFFFF 1 .read) := by
  decide
theorem test_lwz_refused : faultOf (step (storeAtPc (narrow.writeGpr 4 0x2000) 0x80640001)) =
    some (.memFault 0x2001 4 .read) := by decide
theorem test_cmp_less : (after (withCr 0xFFFFFFFF [(3, -1), (4, 1)]) 0x7FA32000).map (·.cr) = some 0xFFFFFFF8 := by decide
theorem test_cmp_words : (after (withCr 0xFFFFFFFF [(3, 0x00000001FFFFFFFF)]) 0x7F832000).map (·.cr) = some 0xFFFFFFF8 := by decide
theorem test_cmpi_greater : (after (withCr 0xFFFFFFFF []) 0x2FA9FFFF).map (·.cr) = some 0xFFFFFFF4 := by decide
theorem test_cmpi_field_2 : (after (withCr 0xFFFFFFFF [(9, 5)]) 0x2D290000).map (·.cr) = some 0xFF4FFFFF := by decide
theorem test_b_backwards : (after (withCr 0 []) 0x4BFFFFFC).map (·.pc) = some 0xFFC := by decide
theorem test_b_wraps : (after (withCr 0 []) 0x4A000000).map (·.pc) = some 0xFFFFFFFFFE001000 := by decide
theorem test_ba : (after (withCr 0 []) 0x48000102).map (·.pc) = some 0x100 := by decide
theorem test_ba_top : (after (withCr 0 []) 0x4BFFFFFE).map (·.pc) = some 0xFFFFFFFFFFFFFFFC := by decide
theorem test_bc_taken : (after (withCr 2 []) 0x419E0008).map (·.pc) = some 0x1008 := by decide
theorem test_bc_not_taken : (after (withCr 8 []) 0x419E0008).map (·.pc) = some 0x1004 := by decide
theorem test_bca_taken : (after (withCr 2 []) 0x419E0042).map (·.pc) = some 0x40 := by decide
theorem test_bca_if_clear : (after (withCr 0 []) 0x409EFFFE).map (·.pc) = some 0xFFFFFFFFFFFFFFFC := by decide
theorem test_bl : (after State.reset 0x48000021).map (fun t => (t.pc, t.lr)) = some (0x1020, 0x1004) := by decide
theorem test_bla : (after State.reset 0x48000203).map (fun t => (t.pc, t.lr)) = some (0x200, 0x1004) := by decide
theorem test_bclr : (after { State.reset with lr := 0x3007 } 0x4E800020).map (fun t => (t.pc, t.lr)) =
    some (0x3004, 0x3007) := by decide
theorem test_bclr_not_taken : (after { State.reset with lr := 0x3000 } 0x4D9E0020).map (·.pc) = some 0x1004 := by decide
theorem test_sc : (after { State.reset with pc := 0x1018 } 0x44000002).map (fun t => (t.srr0, t.pc)) =
    some (0x101C, 0xC00) := by decide
theorem test_mtspr : (after (withRegs [(3, 0x1234567)]) 0x7C6803A6).map (·.lr) = some 0x1234567 := by decide
theorem test_mfspr : (after { State.reset with lr := 0xABC } 0x7C6802A6).map (·.readGpr 3) = some 0xABC := by decide

/-! ## Mnemonics, assembly and the environment -/

/-- The words of section 1.2. -/
theorem test_mnemonics : encode16 (asmLi 9 10) = 0x3920000A ∧ encode16 (asmLis 9 10) = 0x3D20000A ∧
    encode16 (asmMr 3 6) = 0x7CC33378 ∧ encode16 (asmSldi 9 9 2) = 0x79291764 ∧ encode16 (asmSlwi 3 3 8) = 0x5463402E ∧
    encode16 (asmSub 3 4 5) = 0x7C652050 ∧ encode16 (asmSubi 3 4 5) = 0x3864FFFB ∧ encode16 (asmSubis 3 4 5) = 0x3C64FFFB ∧
    encode16 (asmLa 3 16 4) = 0x38640010 ∧ encode16 asmXnop = 0x68000000 := by decide
theorem test_mnemonics_branch : encode16 (asmCmpd 3 4) = 0x7C232000 ∧ encode16 (asmCmpdi 3 100) = 0x2C230064 ∧
    encode16 (asmCmpwi 7 9 4) = 0x2F890004 ∧ encode16 (asmMtlr 3) = 0x7C6803A6 ∧ encode16 (asmMflr 3) = 0x7C6802A6 ∧
    encode16 (asmBeq 2 7) = 0x419E0008 ∧ encode16 (asmBne 2 7) = 0x409E0008 ∧ encode16 asmBlr = 0x4E800020 := by decide
/-- Without a field, field 0 (R126, D30): `bc 12,2` and `bc 4,2`. -/
theorem test_mnemonics_field_omitted : asmBeq 2 = .bc 12 2 2 ∧ asmBne 2 = .bc 4 2 2 ∧
    encode16 (asmBeq 2) = 0x41820008 ∧ encode16 (asmBne 2) = 0x40820008 := by decide
/-- Lines of section 1.3, and a branch with its target in the place of a label (R112, R113). -/
theorem test_assembly : toAssembly 0 (.std 5 8 23) = "std 5,32(23)" ∧ toAssembly 0 (.lha 4 1 31) = "lha 4,1(31)" ∧
    toAssembly 0 (.add 3 4 5) = "add 3,4,5" ∧ toAssembly 0x1000 (.bc 4 30 0x3FFE) = "bc 4,30,4088" := by decide
theorem test_service : (match runStep (.service fun s => s.writeGpr 3 7) (storeAtPc State.reset 0x44000FE2) with
    | .running t => some (t.pc, t.readGpr 3, t.syscallLev)
    | _ => none) = some (0x1004, 7, 127) := by decide
theorem test_halt : (match runUnder .halt 3 (storeAtPc State.reset 0x44000002) with
    | .ended t => some (t.pc, t.srr0)
    | _ => none) = some (0xC00, 0x1004) := by decide

/-! ## The statements' hypotheses can be met -/

/-- A word is fetched at reset once it is stored there. -/
def Fetched (w : InstrWord) : Prop := fetch (storeAtPc State.reset w) = .ok w

theorem witness_DecodeOfEncodeIsTheInstruction : freePrimaryOpcode 16 = true ∧ freePrimaryOpcode 63 = true ∧
    (Instr.add 1 2 3).needsExtRef = false := by decide
theorem witness_EncodeOfDecodeIsTheWord : decode16 false 0x7C642A14 = .ok (.add 3 4 5) ∧
    decode16 true 0x7883F806 = .ok (.rldicr 3 4 63 0) := by decide
theorem witness_AtMostOneRowMatches : freePrimaryOpcode 63 = true ∧
    ((opcodeTable 63).get ⟨38, by decide⟩).matchesWord 0xFC9EFFF8 = true := by decide
/-- The premise of every statement that a word is illegal. -/
theorem witness_Illegal_free : freePrimaryOpcode State.reset.params.poBc = true ∧
    freePrimaryOpcode otherPoBc.params.poBc = true := by decide
theorem witness_RecordAndOverflowWordsAreIllegal :
    (field 0x7C832839 0 5 = 31 ∧ (field 0x7C832839 21 30).toNat = 28 ∧ field 0x7C832839 31 31 = 1) ∧
    (field 0x7C642E14 0 5 = 31 ∧ (field 0x7C642E14 22 30).toNat = 266 ∧ field 0x7C642E14 21 21 = 1) ∧
    (field 0x7C642851 22 30).toNat = 40 ∧ field 0x7C642851 31 31 = 1 ∧
    (field 0x7C83FE77 0 5 = 31 ∧ field 0x7C83FE77 21 29 = 413 ∧ field 0x7C83FE77 31 31 = 1) ∧
    (field 0x5483402F 0 5 = 21 ∧ field 0x5483402F 31 31 = 1) := by decide
theorem witness_Illegal_fetches : Fetched 0x7C832839 ∧ Fetched 0x7C642E14 ∧ Fetched 0x7C83FE77 ∧ Fetched 0x5483402F ∧
    Fetched 0x7C8317B4 ∧ Fetched 0x2FC90004 ∧ Fetched 0x44000000 ∧ Fetched 0xE8B70021 := by unfold Fetched; decide
theorem witness_ReservedBitsMustBeZero :
    (field 0x7C8317B4 0 5 = 31 ∧ field 0x7C8317B4 21 30 = 986 ∧ field 0x7C8317B4 16 20 ≠ 0) ∧
    (field 0x7FE32000 0 5 = 31 ∧ field 0x7FE32000 21 30 = 0 ∧ field 0x7FE32000 9 9 = 1) ∧ field 0x7FA32001 31 31 = 1 ∧
    (field 0x2FC90004 0 5 = 11 ∧ field 0x2FC90004 9 9 = 1) ∧
    (field 0x4E802020 0 5 = 19 ∧ field 0x4E802020 16 18 ≠ 0) ∧
    (field 0x44001002 0 5 = 17 ∧ field 0x44001002 6 19 ≠ 0) ∧ field 0x44000012 27 29 ≠ 0 ∧ field 0x44000003 31 31 ≠ 0 ∧
    (field 0x7C6803A7 0 5 = 31 ∧ (field 0x7C6803A7 21 30).toNat = 467 ∧ field 0x7C6803A7 31 31 = 1) := by decide
theorem witness_UnassignedWordsAreIllegal : (∀ r ∈ opcodeTable State.reset.params.poBc, r.matchesWord 0 = false) ∧
    ((field 0 0 5).toNat = 0 ∧ (field 0xFFFFFFFF 0 5).toNat = 63 ∧ field 0xFFFFFFFF 0 5 ≠ State.reset.params.poBc) ∧
    (field 0x419E0008 0 5 ≠ otherPoBc.params.poBc ∧ field 0xFD9E0009 0 5 = otherPoBc.params.poBc ∧
      field 0xFD9E0009 31 31 = 1) ∧
    (field 0x7C6429D2 0 5 = 31 ∧ (field 0x7C6429D2 21 30).toNat = 233) ∧
    (field 0x41820009 0 5 = State.reset.params.poBc ∧ field 0x41820009 31 31 = 1) ∧
    (field 0x4C000420 0 5 = 19 ∧ field 0x4C000420 21 30 ≠ 16) ∧
    (field 0xE8B70021 0 5 = 58 ∧ field 0xE8B70021 30 31 ≠ 0) ∧ field 0xF8B70023 0 5 = 62 ∧
    (field 0x44000000 0 5 = 17 ∧ field 0x44000000 30 30 = 0) ∧
    (field 0x78000000 0 5 = 30 ∧ field 0x78000000 27 29 ≠ 1) ∧
    (field 0x7C6903A6 0 5 = 31 ∧ (field 0x7C6903A6 21 30).toNat = 467 ∧ field 0x7C6903A6 11 20 ≠ 0b0100000000) ∧
    (freePrimaryOpcode narrow.params.poBc = true ∧ narrow.params.extRef = false ∧ (Instr.mtspr 3).needsExtRef = true ∧
      fetch (storeAtPc narrow (encode16 (.mtspr 3))) = .ok (encode16 (.mtspr 3))) := by decide
theorem witness_InvalidFormsStop : freePrimaryOpcode State.reset.params.poBc = true ∧
    fetch (storeAtPc State.reset 0x94A00004) = .ok (0x94000000 ||| fieldAt 5#5 21 ||| fieldAt 4#16 0) ∧
    (¬((0#5).getLsbD 4 = true ∧ (0#5).getLsbD 2 = true) ∧ 0#5 ≠ 12 ∧ 0#5 ≠ 4) ∧
    (¬((27#5).getLsbD 4 = true ∧ (27#5).getLsbD 2 = true) ∧ 27#5 ≠ 12 ∧ 27#5 ≠ 4) ∧
    fetch (storeAtPc State.reset (encode16 (.bc 0 0 2))) = .ok (encode16 (.bc 0 0 2)) ∧
    fetch (storeAtPc State.reset (encode16 (.bca 27 0 2))) = .ok (encode16 (.bca 27 0 2)) ∧
    fetch (storeAtPc State.reset (encode16 (.bclr 0 0 0))) = .ok (encode16 (.bclr 0 0 0)) := by decide

/-- `add 3,4,5` at the pc. -/
def atAdd : State := storeAtPc State.reset 0x7C642A14

theorem witness_StepRunsTheDecodedInstruction : atAdd.backedAll atAdd.pc 4 = true ∧
    decode atAdd.params.poBc atAdd.params.extRef (atAdd.byteAt (atAdd.pc + 3) ++ atAdd.byteAt (atAdd.pc + 2) ++
      atAdd.byteAt (atAdd.pc + 1) ++ atAdd.byteAt atAdd.pc) = .ok (.add 3 4 5) := by decide
theorem witness_ChecksComeInOrder : State.backedAll { narrow with pc := 0x3000 } 0x3000 4 = false ∧
    (fetch State.reset = .ok 0 ∧ decode16 true 0 = .error (.noRow 0)) ∧
    (fetch (storeAtPc State.reset 0x94A00004) = .ok 0x94A00004 ∧ decode16 true 0x94A00004 = .ok (.stwu 5 4 0) ∧
      (Instr.stwu 5 4 0).wellFormed = false) ∧
    (fetch (storeAtPc narrow 0x8860FFFF) = .ok 0x8860FFFF ∧ decode16 false 0x8860FFFF = .ok (.lbz 3 0xFFFF 0) ∧
      (Instr.lbz 3 0xFFFF 0).wellFormed = true ∧
      faultOf (step (storeAtPc narrow 0x8860FFFF)) = some (.memFault (-1) 1 .read)) := by decide
theorem witness_InstructionsStopOnlyAsNamed : (Instr.bclr 0 0 0).wellFormed = false ∧
    (Instr.std 5 0 0).wellFormed = true ∧ faultOf (exec (.std 5 0 0) narrow) = some (.memFault 0 8 .write) := by decide
theorem witness_StepKeepsTheInvariant : atAdd.Inv ∧ ∃ t, step atAdd = .next t := ⟨by decide, _, rfl⟩
theorem witness_StepKeepsTheParameters : ∃ t, step atAdd = .next t := ⟨_, rfl⟩
theorem witness_OnlyLoadsAndStoresReachMemory : reachesMemory (.add 3 4 5) = false ∧ reachesMemory (.sc 0) = false ∧
    reachesMemory (.bc 12 30 2) = false := by decide
theorem witness_OnlyStoredBytesChange : (storeState 0x2000).mem.wf = true ∧
    ∃ t, exec (.stb 5 7 4) (storeState 0x2000) = .next t ∧ t.byteAt 0x2007 ≠ (storeState 0x2000).byteAt 0x2007 :=
  ⟨by decide, _, rfl, by decide⟩
theorem witness_OnlyComparesWriteCr :
    (∃ t, exec (.cmpi 7 1 9 4) State.reset = .next t ∧ t.cr ≠ State.reset.cr) ∧
    (instrKind (.add 3 4 5) ≠ .compare ∧ instrKind (.add 3 4 5) ≠ .conditional) ∧
    (0x00000002#32).getLsbD (31 - (30#5).toNat) = (0xFFFFFFFF#32).getLsbD (31 - (30#5).toNat) :=
  ⟨⟨_, rfl, by decide⟩, by decide, by decide⟩
theorem witness_OnlyLinkBranchesAndMtsprWriteLr :
    (∃ t, step (storeAtPc State.reset 0x48000021) = .next t ∧ t.lr ≠ 0) ∧
    ∃ t, step (storeAtPc (withRegs [(3, 7)]) 0x7C6803A6) = .next t ∧ t.lr ≠ 0 :=
  ⟨⟨_, rfl, by decide⟩, ⟨_, rfl, by decide⟩⟩
theorem witness_OnlyScWritesSrr0AndNoneReadsIt :
    (∃ t, exec (.sc 127) State.reset = .next t ∧ t.srr0 ≠ State.reset.srr0) ∧ instrKind (.bclr 20 0 0) ≠ .systemCall :=
  ⟨⟨_, rfl, by decide⟩, by decide⟩
theorem witness_OnlyTakenBranchesAndScLeaveTheSequence :
    (∃ t, exec (.b 0) State.reset = .next t ∧ t.pc ≠ State.reset.pc + 4) ∧
    (instrKind (.ba 1) = .jump ∧ instrKind (.bla 1) = .link) ∧
    (withCr 0 []).cr.getLsbD (31 - (30#5).toNat) = false ∧ (withCr 2 []).cr.getLsbD (31 - (30#5).toNat) = true :=
  ⟨⟨_, rfl, by decide⟩, by decide, by decide, by decide⟩
theorem witness_ReadsAreLittleEndian : loadState.permits .read 0x2000 8 = true ∧
    loadState.permits .read 0xFFFFFFFFFFFFFFFF 4 = true := by decide
theorem witness_WritesStoreExactlyTheirBytes : narrow.mem.wf = true ∧ narrow.permits .write 0x2FF8 8 = true ∧
    narrow.permits .write 0x2FFF 1 = true ∧ narrow.backed (0x2FFF + BitVec.ofNat 64 1) = false := by decide
theorem witness_WidthsSeeTheSameBytes : loadState.mem.wf = true ∧ 0 + 8 ≤ 8 ∧ 7 + 1 ≤ 8 ∧ 8 + 0 ≤ 8 := by decide
theorem witness_AStoreIsSeenByTheNextFetch : State.reset.mem.wf = true ∧
    State.reset.effectiveAddress 0 (signedImm 0x1004) = State.reset.pc + 4 ∧
    State.reset.permits .write (State.reset.pc + 4) 4 = true := by decide
theorem witness_RegistersHoldWhatWasWritten : (31 : RegNum) ≠ 0 := by decide
theorem witness_Rotl64Rotates : 64 ≤ 64 ∧ 64 % 64 = 0 ∧ 63 % 64 ≠ 0 ∧ 63 < 64 := by decide
theorem witness_MaskHasOnesFromAThroughB : (0 ≤ 63 ∧ 63 < 64) ∧ (63 : Nat) ≤ 63 ∧ (0 : Nat) < 64 := by decide
theorem witness_ExtendSignWord : field 0x7C8307B5 0 5 = 31 ∧ field 0x7C8307B5 21 30 = 986 ∧ field 0x7C8307B5 31 31 = 1 := by
  decide
theorem witness_LoadDoubleword : (field 0xE8B70021 0 5 = 58 ∧ field 0xE8B70021 30 31 ≠ 0) ∧
    0x2FF8 = (if (0 : RegNum) = 0 then 0 else narrow.readGpr 0) + (0x0BFE#14 ++ 0#2).signExtend 64 ∧
    narrow.permits .read 0x2FF8 8 = true ∧
    0x3000 = (if (0 : RegNum) = 0 then 0 else narrow.readGpr 0) + (0x0C00#14 ++ 0#2).signExtend 64 ∧
    narrow.permits .read 0x3000 8 = false := by decide
/-- The last word, halfword and byte of the storage and the first addresses beyond, each reached with RA = 0. -/
theorem witness_ZeroExtendingLoads : 0x2FFC = 0 + (0x2FFC#16).signExtend 64 ∧
    (narrow.permits .read 0x2FFC 4 = true ∧ narrow.permits .read 0x2FFD 4 = false) ∧
    (narrow.permits .read 0x2FFE 2 = true ∧ narrow.permits .read 0x2FFF 2 = false) ∧
    (narrow.permits .read 0x2FFF 1 = true ∧ narrow.permits .read 0x3000 1 = false) := by decide
theorem witness_LoadHalfwordAlgebraic : 0x2FFE = 0 + (0x2FFE#16).signExtend 64 ∧
    narrow.permits .read 0x2FFE 2 = true ∧ narrow.permits .read 0x2FFF 2 = false := by decide
theorem witness_Stores : (field 0xF8B70023 0 5 = 62 ∧ field 0xF8B70023 30 31 ≠ 0) ∧ narrow.mem.wf = true ∧
    (narrow.permits .write (narrow.effectiveAddress 0 (dsDisp 0x0BFE)) 8 = true ∧
      narrow.permits .write (narrow.effectiveAddress 0 (dsDisp 0x0C00)) 8 = false) ∧
    (narrow.permits .write (narrow.effectiveAddress 0 (signedImm 0x2FFC)) 4 = true ∧
      narrow.permits .write (narrow.effectiveAddress 0 (signedImm 0x2FFD)) 4 = false) ∧
    (narrow.permits .write (narrow.effectiveAddress 0 (signedImm 0x2FFE)) 2 = true ∧
      narrow.permits .write (narrow.effectiveAddress 0 (signedImm 0x2FFF)) 2 = false) ∧
    (narrow.permits .write (narrow.effectiveAddress 0 (signedImm 0x2FFF)) 1 = true ∧
      narrow.permits .write (narrow.effectiveAddress 0 (signedImm 0x3000)) 1 = false) := by decide
theorem witness_StoreWordWithUpdate : (1 : RegNum) ≠ 0 ∧ narrow.mem.wf = true ∧
    (0x2FFC = (narrow.writeGpr 1 0x3000).readGpr 1 + signedImm 0xFFFC ∧
      (narrow.writeGpr 1 0x3000).permits .write 0x2FFC 4 = true) ∧
    (0x3000 = (narrow.writeGpr 1 0x3000).readGpr 1 + signedImm 0 ∧
      (narrow.writeGpr 1 0x3000).permits .write 0x3000 4 = false) := by decide
theorem witness_RotateLeftWordAndMask : 31 < 32 := by decide
theorem witness_RotateDoublewordAndClearRight : 63 < 64 := by decide
theorem witness_ShiftLeftDoubleword : 0 = ((withRegs []).readGpr 5 |>.extractLsb' 0 7).toNat ∧
    63 = ((withRegs [(5, 63)]).readGpr 5 |>.extractLsb' 0 7).toNat ∧
    64 = ((withRegs [(5, 64)]).readGpr 5 |>.extractLsb' 0 7).toNat ∧
    127 = ((withRegs [(5, 127)]).readGpr 5 |>.extractLsb' 0 7).toNat := by decide
theorem witness_ShiftRightDoubleword : 0 = ((withRegs []).readGpr 5 |>.extractLsb' 0 7).toNat ∧
    64 = ((withRegs [(5, 64)]).readGpr 5 |>.extractLsb' 0 7).toNat := by decide
theorem witness_ShiftRightAlgebraic : 63 = ((withRegs [(5, 63)]).readGpr 5 |>.extractLsb' 0 7).toNat ∧
    127 = ((withRegs [(5, -1)]).readGpr 5 |>.extractLsb' 0 7).toNat := by decide
theorem witness_UnconditionalBranches : ((-2 ^ 23 : Int) ≤ -2 ^ 23 ∧ (-2 ^ 23 : Int) < 2 ^ 23) ∧
    ((-2 ^ 23 : Int) ≤ 2 ^ 23 - 1 ∧ (2 ^ 23 - 1 : Int) < 2 ^ 23) := by decide
theorem witness_BranchAndLink : ((-2 ^ 23 : Int) ≤ -2 ^ 23 ∧ (-2 ^ 23 : Int) < 2 ^ 23) ∧
    ((-2 ^ 23 : Int) ≤ 2 ^ 23 - 1 ∧ (2 ^ 23 - 1 : Int) < 2 ^ 23) := by decide
/-- A displacement at each end of the range; the BO of the clauses are in `witness_BranchToLinkRegister`. -/
theorem witness_ConditionalBranches : (freePrimaryOpcode 0 = true ∧ freePrimaryOpcode 63 = true) ∧
    ((-2 ^ 13 : Int) ≤ -2 ^ 13 ∧ (-2 ^ 13 : Int) < 2 ^ 13) ∧
    ((-2 ^ 13 : Int) ≤ 2 ^ 13 - 1 ∧ (2 ^ 13 - 1 : Int) < 2 ^ 13) := by decide
/-- Each clause of `BranchesOn` has a BO of its own. -/
theorem witness_BranchToLinkRegister : ((20#5).getLsbD 4 = true ∧ (20#5).getLsbD 2 = true) ∧
    ((31#5).getLsbD 4 = true ∧ (31#5).getLsbD 2 = true) ∧ ¬((12#5).getLsbD 4 = true ∧ (12#5).getLsbD 2 = true) ∧
    ¬((4#5).getLsbD 4 = true ∧ (4#5).getLsbD 2 = true) ∧
    (¬((28#5 - 1).getLsbD 4 = true ∧ (28#5 - 1).getLsbD 2 = true) ∧ 28#5 - 1 ≠ 12 ∧ 28#5 - 1 ≠ 4) := by decide
theorem witness_CompareRegisters : (0 : BitVec 3) ≠ 7 := by decide
theorem witness_CompareImmediate : (7 : BitVec 3) ≠ 0 := by decide
theorem witness_BranchAfterCompare : ∃ t, exec (.cmp 7 1 3 4) (withRegs [(3, -1), (4, 1)]) = .next t ∧
    (-1 : Int) = ((withRegs [(3, -1), (4, 1)]).readGpr 3).toInt ∧ (1 : Int) = ((withRegs [(3, -1), (4, 1)]).readGpr 4).toInt :=
  ⟨_, rfl, by decide, by decide⟩
/-- The clause of field 0. -/
theorem witness_BranchAfterCompare_field_0 : (0 : BitVec 3) = 0 ∧ ∃ t, exec (.cmp 0 1 3 4) State.reset = .next t ∧
    (0 : Int) = (State.reset.readGpr 3).toInt ∧ (0 : Int) = (State.reset.readGpr 4).toInt :=
  ⟨rfl, _, rfl, by decide, by decide⟩
theorem witness_SyscallServiceShapes : fetchDecode (storeAtPc State.reset 0x44000FE2) = .ok (.sc 127) := by decide
theorem witness_RunsEndAsNamed :
    (∃ t, runUnder .halt 1 (storeAtPc State.reset 0x44000002) = .ended t) ∧
    ∃ t f, runUnder .handler 1 State.reset = .faulted t f := ⟨⟨_, rfl⟩, ⟨_, _, rfl⟩⟩
theorem witness_ExtendedMnemonicsCompute : ((-32767 : Int) ≤ -32767 ∧ (-32767 : Int) ≤ 32768) ∧
    ((-32767 : Int) ≤ 32768 ∧ (32768 : Int) ≤ 32768) := by decide

end Sys2Proof.Tests
end

/-! The rotate and mask primitives of 00_scope R16 and R18: what stands at each position of the result. The source's
position 0 is the most significant bit (R9), which is the library's `BitVec.getMsbD`; `BitVec.getLsbD j` is the bit of
weight 2^j. -/

namespace Sys2Proof.Proofs
open Sys2Proof.Machine

/-! ## ROTL64 -/

theorem rotl64_of_mod_eq_zero (v : Word) {n : Nat} (h : n % 64 = 0) : rotl64 v n = v := if_pos h

theorem rotl64_of_mod_ne_zero (v : Word) {n : Nat} (h : n % 64 ≠ 0) :
    rotl64 v n = (v <<< (n % 64)) ||| (v >>> (64 - n % 64)) := if_neg h

/-- The library's rotation shifts right by 64 for a full turn, where the model answers the value itself. -/
theorem rotl64_eq_rotateLeft (v : Word) (n : Nat) : rotl64 v n = v.rotateLeft n := by
  by_cases h : n % 64 = 0
  · rw [rotl64_of_mod_eq_zero v h, BitVec.rotateLeft_def, h, BitVec.shiftLeft_zero, Nat.sub_zero,
      BitVec.ushiftRight_eq_zero (le_refl 64), BitVec.or_zero]
  · rw [rotl64_of_mod_ne_zero v h, BitVec.rotateLeft_def]

/-- Each bit of a rotated value comes from `n` places to its right, counted around. -/
theorem getLsbD_rotl64 (v : Word) (n : Nat) {j : Nat} (hj : j < 64) :
    (rotl64 v n).getLsbD j = v.getLsbD ((j + (64 - n % 64)) % 64) := by
  rw [rotl64_eq_rotateLeft, BitVec.getLsbD_rotateLeft]
  by_cases h : j < n % 64
  · have hsource : (j + (64 - n % 64)) % 64 = 64 - n % 64 + j := by omega
    simp [h, hsource]
  · have hsource : (j + (64 - n % 64)) % 64 = j - n % 64 := by omega
    simp [h, hj, hsource]

theorem getLsbD_rotl64_add (v : Word) (n : Nat) {j : Nat} (hj : j < 64) :
    (rotl64 v n).getLsbD ((j + n) % 64) = v.getLsbD j := by
  have hsource : ((j + n) % 64 + (64 - n % 64)) % 64 = j := by omega
  rw [getLsbD_rotl64 v n (Nat.mod_lt _ (by decide)), hsource]

/-- Settles O27: the moved bit is read off the library's rotation, the two forms are the model's two branches. -/
theorem rotl64Rotates : Obligations.Rotl64Rotates := by
  intro v n _
  exact ⟨fun _ hj => getLsbD_rotl64_add v n hj, rotl64_of_mod_ne_zero v, rotl64_of_mod_eq_zero v⟩

/-! ## MASK -/

theorem getMsbD_onesFrom (a : Nat) {p : Nat} (hp : p < 64) : (onesFrom a).getMsbD p = decide (a ≤ p) := by
  have hin : p - a < 64 := by omega
  rw [onesFrom, BitVec.getMsbD_ushiftRight, BitVec.getMsbD_allOnes, ← decide_not]
  simp [hp, hin]

theorem getMsbD_onesTo {b p : Nat} (hb : b < 64) : (onesTo b).getMsbD p = decide (p ≤ b) := by
  have hin : p + (63 - b) < 64 ↔ p ≤ b := by omega
  rw [onesTo, BitVec.getMsbD_shiftLeft, BitVec.getMsbD_allOnes, decide_eq_decide.mpr hin]

/-- R18's description of the mask, position by position; `a > b` wraps. -/
theorem getMsbD_mask (a : Nat) {b p : Nat} (hb : b < 64) (hp : p < 64) :
    (mask a b).getMsbD p = if a ≤ b then decide (a ≤ p ∧ p ≤ b) else decide (a ≤ p ∨ p ≤ b) := by
  unfold mask
  split
  · rw [BitVec.getMsbD_and, getMsbD_onesFrom a hp, getMsbD_onesTo hb, Bool.decide_and]
  · rw [BitVec.getMsbD_or, getMsbD_onesFrom a hp, getMsbD_onesTo hb, Bool.decide_or]

theorem getLsbD_mask_position_iff (a : Nat) {b p : Nat} (hb : b < 64) (hp : p < 64) :
    (mask a b).getLsbD (63 - p) = true ↔ (a ≤ b ∧ a ≤ p ∧ p ≤ b) ∨ (b < a ∧ (a ≤ p ∨ p ≤ b)) := by
  have hposition : (mask a b).getLsbD (63 - p) = (mask a b).getMsbD p := by
    simp [BitVec.getMsbD_eq_getLsbD, hp]
  rw [hposition, getMsbD_mask a hb hp]
  split
  · next h => simp [h]
  · next h => simp [h, Nat.lt_of_not_le h]

theorem mask_full : mask 0 63 = BitVec.allOnes 64 := by
  apply BitVec.eq_of_getMsbD_eq
  intro p hp
  rw [getMsbD_mask 0 (by decide) hp, BitVec.getMsbD_allOnes]
  simp [hp, Nat.le_of_lt_succ hp]

theorem toNat_onesFrom (a : Nat) : (onesFrom a).toNat = 2 ^ (64 - a) - 1 := by
  apply Nat.eq_of_testBit_eq
  intro j
  rw [onesFrom, BitVec.toNat_ushiftRight, BitVec.toNat_allOnes, Nat.testBit_shiftRight, Nat.testBit_two_pow_sub_one,
    Nat.testBit_two_pow_sub_one, decide_eq_decide]
  omega

/-- The ones of a mask and the ones to its right share no position, and together are the ones from `a` on. -/
theorem mask_and_onesFrom {a b : Nat} (h : a ≤ b) (hb : b < 64) : mask a b &&& onesFrom (b + 1) = 0#64 := by
  apply BitVec.eq_of_getMsbD_eq
  intro p hp
  have hapart : ¬((a ≤ p ∧ p ≤ b) ∧ b + 1 ≤ p) := by omega
  rw [BitVec.getMsbD_and, getMsbD_mask a hb hp, getMsbD_onesFrom _ hp, if_pos h, ← Bool.decide_and,
    decide_eq_false hapart, BitVec.getMsbD_zero]

theorem mask_or_onesFrom {a b : Nat} (h : a ≤ b) (hb : b < 64) : mask a b ||| onesFrom (b + 1) = onesFrom a := by
  apply BitVec.eq_of_getMsbD_eq
  intro p hp
  have hcover : (a ≤ p ∧ p ≤ b) ∨ b + 1 ≤ p ↔ a ≤ p := by omega
  rw [BitVec.getMsbD_or, getMsbD_mask a hb hp, getMsbD_onesFrom _ hp, getMsbD_onesFrom _ hp, if_pos h,
    ← Bool.decide_or, decide_eq_decide.mpr hcover]

/-- R18's formula: all ones from `a` on, less the ones to the right of `b`. -/
theorem toNat_mask {a b : Nat} (h : a ≤ b) (hb : b < 64) :
    (mask a b).toNat = (2 ^ (64 - a) - 1) - (2 ^ (63 - b) - 1) := by
  have hsum : (onesFrom a).toNat = (mask a b).toNat + (onesFrom (b + 1)).toNat := by
    rw [← BitVec.toNat_add_of_and_eq_zero (mask_and_onesFrom h hb),
      BitVec.add_eq_or_of_and_eq_zero _ _ (mask_and_onesFrom h hb), mask_or_onesFrom h hb]
  rw [toNat_onesFrom, toNat_onesFrom, Nat.add_sub_add_right 63 1 b] at hsum
  exact (Nat.sub_eq_of_eq_add hsum).symm

theorem mask_self {a : Nat} (ha : a < 64) : mask a a = ((1 <<< (63 - a) : Nat) : Word) := by
  have hdouble : 2 ^ (64 - a) = 2 * 2 ^ (63 - a) := by rw [← Nat.pow_succ']; congr 1; omega
  have hlt : 2 ^ (63 - a) < 2 ^ 64 := Nat.pow_lt_pow_right (by decide) (by omega)
  apply BitVec.eq_of_toNat_eq
  rw [toNat_mask (le_refl a) ha, BitVec.natCast_eq_ofNat, BitVec.toNat_ofNat, Nat.one_shiftLeft,
    Nat.mod_eq_of_lt hlt, hdouble]
  omega

/-- Settles O28, by what stands at each position; the single one of MASK(a, a) is R18's formula at `a = b`. -/
theorem maskHasOnesFromAThroughB : Obligations.MaskHasOnesFromAThroughB :=
  ⟨fun a _ _ _ hb hp => getLsbD_mask_position_iff a hb hp, mask_full, fun _ ha => mask_self ha,
    fun _ _ h hb => toNat_mask h hb⟩

end Sys2Proof.Proofs

/-! The state (10_state R20 to R40): what an instruction reads and writes of it, by the kind of instruction, and the
invariant that every step keeps. -/

namespace Sys2Proof.Proofs
open Sys2Proof.Machine Sys2Proof.Laws

/-! ## The one shared operation that each instruction is -/

/-- What `value` gives is fixed by the general registers, LR and the pc: CR, SRR0, memory and the parameters may be those
of any other state. -/
def OfRegisters {α : Type} (value : State → α) : Prop :=
  ∀ s t : State, value { t with gpr := s.gpr, lr := s.lr, pc := s.pc } = value s

/-- A branch from a multiple of 4 goes to a multiple of 4. -/
def KeepsAlignment (target : State → Word) : Prop := ∀ s : State, s.pc.toNat % 4 = 0 → (target s).toNat % 4 = 0

/-- An instruction is one call of a shared operation, and its operands come from the registers alone. -/
inductive Acts : Instr → Prop where
  | register {i : Instr} {r : RegNum} {value : State → Word} (kind : instrKind i = .register)
      (exec_eq : ∀ s, exec i s = writeResult s r (value s)) (reads : OfRegisters value) : Acts i
  | load {i : Instr} {rt ra : RegNum} {disp : Word} {n : Nat} {extend : BitVec (8 * n) → Word}
      (kind : instrKind i = .load)
      (exec_eq : ∀ s, exec i s = loadResult s rt (s.effectiveAddress ra disp) n extend) : Acts i
  | store {i : Instr} {ra : RegNum} {disp : Word} {n : Nat} {value : State → BitVec (8 * n)}
      (kind : instrKind i = .store)
      (exec_eq : ∀ s, exec i s = storeResult s (s.effectiveAddress ra disp) n (value s))
      (reads : OfRegisters value) : Acts i
  | storeUpdate (rs : RegNum) (d : BitVec 16) (ra : RegNum) : Acts (.stwu rs d ra)
  | jump {i : Instr} {target : State → Word} (kind : instrKind i = .jump)
      (exec_eq : ∀ s, exec i s = branchResult s (target s)) (reads : OfRegisters target)
      (aligned : KeepsAlignment target) : Acts i
  | link {i : Instr} {target : State → Word} (kind : instrKind i = .link)
      (exec_eq : ∀ s, exec i s = linkResult s (target s)) (reads : OfRegisters target)
      (aligned : KeepsAlignment target) : Acts i
  | conditional {i : Instr} {bo bi : BitVec 5} {target : State → Word} (kind : instrKind i = .conditional)
      (exec_eq : ∀ s, exec i s = conditionalResult s (encode s.params.poBc i) bo bi (target s))
      (reads : OfRegisters target) (aligned : KeepsAlignment target) : Acts i
  | compare {i : Instr} {bf : BitVec 3} {a b : State → Word}
      (isCompare : (∃ l ra rb, i = .cmp bf l ra rb) ∨ ∃ l ra si, i = .cmpi bf l ra si)
      (exec_eq : ∀ s, exec i s = compareResult s bf (a s) (b s)) (readsLeft : OfRegisters a)
      (readsRight : OfRegisters b) : Acts i
  | systemCall (lev : BitVec 7) : Acts (.sc lev)
  | toLink (rs : RegNum) : Acts (.mtspr rs)

theorem append_zeros_mod_four {n : Nat} (x : BitVec n) : (x ++ 0#2).toNat % 4 = 0 := by
  simp [BitVec.toNat_append, Nat.shiftLeft_eq, Nat.mul_mod_left]

/-- The two low-order bits of a displacement with two zeros on the right (30_encoding R92) survive its extension. -/
theorem signExtend_append_zeros_mod_four {n : Nat} (x : BitVec n) : ((x ++ 0#2).signExtend 64).toNat % 4 = 0 := by
  have hlow : ((x ++ 0#2).signExtend 64).setWidth 2 = 0#2 := by
    apply BitVec.eq_of_getLsbD_eq
    intro j hj
    simp [BitVec.getLsbD_signExtend, BitVec.getLsbD_append, hj]
    omega
  simpa using congrArg BitVec.toNat hlow

theorem add_mod_four {a b : Word} (ha : a.toNat % 4 = 0) (hb : b.toNat % 4 = 0) : (a + b).toNat % 4 = 0 := by
  rw [BitVec.toNat_add]
  omega

theorem relativeTarget_keepsAlignment {disp : Word} (h : disp.toNat % 4 = 0) :
    KeepsAlignment fun s => s.pc + disp := fun _ hpc => add_mod_four hpc h

theorem absoluteTarget_keepsAlignment {disp : Word} (h : disp.toNat % 4 = 0) : KeepsAlignment fun _ => disp :=
  fun _ _ => h

theorem linkTarget_keepsAlignment : KeepsAlignment fun s => clearLowTwo s.lr :=
  fun _ _ => append_zeros_mod_four _

/-- The model's dispatch read once; the alternatives go by the kind of instruction. -/
theorem acts (i : Instr) : Acts i := by
  cases i with
  | add | addi | addis | and | andi | extsw | nand | or | ori | subf | xor | xori | rlwinm | sld | srd | srad | sradi
  | mfspr | rldicr => exact .register rfl (fun _ => rfl) (fun _ _ => rfl)
  | ld | lwz | lhz | lha | lbz => exact .load rfl (fun _ => rfl)
  | std | stw | sth | stb => exact .store rfl (fun _ => rfl) (fun _ _ => rfl)
  | stwu rs d ra => exact .storeUpdate rs d ra
  | b li =>
    exact .jump rfl (fun _ => rfl) (fun _ _ => rfl) (relativeTarget_keepsAlignment (signExtend_append_zeros_mod_four li))
  | ba li =>
    exact .jump rfl (fun _ => rfl) (fun _ _ => rfl) (absoluteTarget_keepsAlignment (signExtend_append_zeros_mod_four li))
  | bl li =>
    exact .link rfl (fun _ => rfl) (fun _ _ => rfl) (relativeTarget_keepsAlignment (signExtend_append_zeros_mod_four li))
  | bla li =>
    exact .link rfl (fun _ => rfl) (fun _ _ => rfl) (absoluteTarget_keepsAlignment (signExtend_append_zeros_mod_four li))
  | bc bo bi bd =>
    exact .conditional rfl (fun _ => rfl) (fun _ _ => rfl)
      (relativeTarget_keepsAlignment (signExtend_append_zeros_mod_four bd))
  | bca bo bi bd =>
    exact .conditional rfl (fun _ => rfl) (fun _ _ => rfl)
      (absoluteTarget_keepsAlignment (signExtend_append_zeros_mod_four bd))
  | bclr bo bi bh => exact .conditional rfl (fun _ => rfl) (fun _ _ => rfl) linkTarget_keepsAlignment
  | cmp bf l ra rb => exact .compare (.inl ⟨l, ra, rb, rfl⟩) (fun _ => rfl) (fun _ _ => rfl) (fun _ _ => rfl)
  | cmpi bf l ra si => exact .compare (.inr ⟨l, ra, si, rfl⟩) (fun _ => rfl) (fun _ _ => rfl) (fun _ _ => rfl)
  | sc lev => exact .systemCall lev
  | mtspr rs => exact .toLink rs

/-! ## What an instruction writes -/

/-- The states that an instruction can go on to. -/
inductive NextOf (i : Instr) (s : State) : State → Prop where
  | wrote (r : RegNum) (v : Word) : NextOf i s (s.writeGpr r v).advance
  | stored (ea : Word) (n : Nat) (v : BitVec (8 * n)) (permitted : s.permits .write ea n = true) :
      NextOf i s { s with mem := s.mem.store ea n v }.advance
  | storedAndWrote (r : RegNum) (w : Word) (ea : Word) (n : Nat) (v : BitVec (8 * n))
      (permitted : s.permits .write ea n = true) :
      NextOf i s ({ s with mem := s.mem.store ea n v }.writeGpr r w).advance
  | jumped (target : Word) (aligned : s.pc.toNat % 4 = 0 → target.toNat % 4 = 0) : NextOf i s (s.jump target)
  | linked (target : Word) (aligned : s.pc.toNat % 4 = 0 → target.toNat % 4 = 0) :
      NextOf i s ({ s with lr := s.pc + 4 }.jump target)
  | fellThrough : NextOf i s s.advance
  | compared (bf : BitVec 3) (c : BitVec 4)
      (isCompare : (∃ l ra rb, i = .cmp bf l ra rb) ∨ ∃ l ra si, i = .cmpi bf l ra si) :
      NextOf i s { s with cr := setCrField s.cr bf c }.advance
  | trapped (lev : BitVec 7) (isSystemCall : i = .sc lev) : NextOf i s (takeSystemCall s)
  | wroteLink (v : Word) : NextOf i s { s with lr := v }.advance

theorem next_inj {s t : State} (h : (.next s : Result) = .next t) : s = t := by cases h; rfl

theorem nextOf_of_exec {i : Instr} {s t : State} (h : exec i s = .next t) : NextOf i s t := by
  cases acts i with
  | register _ exec_eq _ =>
    obtain rfl := next_inj ((exec_eq s).symm.trans h)
    exact .wrote _ _
  | load _ exec_eq =>
    rw [exec_eq, loadResult_eq] at h
    split at h <;> cases h
    exact .wrote _ _
  | store _ exec_eq _ =>
    rw [exec_eq, storeResult_eq] at h
    split at h <;> cases h
    next permitted => exact .stored _ _ _ permitted
  | storeUpdate rs d ra =>
    change execStwu rs d ra s = .next t at h
    rw [execStwu, storeUpdateResult_eq] at h
    split at h
    · cases h
    · split at h <;> cases h
      next permitted => exact .storedAndWrote _ _ _ _ _ permitted
  | jump _ exec_eq _ aligned =>
    obtain rfl := next_inj ((exec_eq s).symm.trans h)
    exact .jumped _ (aligned s)
  | link _ exec_eq _ aligned =>
    obtain rfl := next_inj ((exec_eq s).symm.trans h)
    exact .linked _ (aligned s)
  | @conditional _ bo bi target _ exec_eq _ aligned =>
    rw [exec_eq] at h
    rcases conditionalResult_cases s (encode s.params.poBc i) bo bi (target s) with
      ⟨_, stop⟩ | ⟨_, _, ⟨_, taken⟩ | ⟨_, notTaken⟩⟩
    · cases stop.symm.trans h
    · obtain rfl := next_inj (taken.symm.trans h)
      exact .jumped _ (aligned s)
    · obtain rfl := next_inj (notTaken.symm.trans h)
      exact .fellThrough
  | compare isCompare exec_eq _ _ =>
    obtain rfl := next_inj ((exec_eq s).symm.trans h)
    exact .compared _ _ isCompare
  | systemCall lev =>
    obtain rfl := next_inj h
    exact .trapped lev rfl
  | toLink rs =>
    obtain rfl := next_inj h
    exact .wroteLink _

/-! ## The invariant (R27, R54) -/

theorem mem_consCell {c : Host.Cell} {a : Nat} {v : Byte} {m : Memory} (h : c ∈ Memory.consCell a v m) :
    c ∈ m ∨ c.1 = a := by
  unfold Memory.consCell at h
  split at h
  · exact .inl h
  · rcases List.mem_cons.mp h with rfl | hrest
    · exact .inr rfl
    · exact .inl hrest

theorem mem_write {c : Host.Cell} {a : Nat} {v : Byte} {m : Memory} (h : c ∈ m.write a v) : c ∈ m ∨ c.1 = a := by
  induction m with
  | nil => exact mem_consCell h
  | cons cell rest ih =>
    obtain ⟨k, b⟩ := cell
    unfold Memory.write at h
    split at h
    · exact mem_consCell h
    · split at h
      · exact (mem_consCell h).imp_left (List.mem_cons_of_mem _)
      · rcases List.mem_cons.mp h with rfl | hrest
        · exact .inl List.mem_cons_self
        · exact (ih hrest).imp_left (List.mem_cons_of_mem _)

/-- A store lists no byte but those it stores. -/
theorem mem_store {c : Host.Cell} {m : Memory} {a : Word} {n : Nat} {v : BitVec (8 * n)} (h : c ∈ m.store a n v) :
    c ∈ m ∨ ∃ i < n, c.1 = (a + BitVec.ofNat 64 i).toNat := by
  induction n generalizing m a with
  | zero => exact .inl h
  | succ n ih =>
    rcases ih h with hwritten | ⟨i, hi, hc⟩
    · rcases mem_write hwritten with hm | hc
      · exact .inl hm
      · exact .inr ⟨0, Nat.succ_pos n, by simpa using hc⟩
    · refine .inr ⟨i + 1, Nat.succ_lt_succ hi, ?_⟩
      rw [hc, BitVec.ofNat_add, BitVec.add_comm (BitVec.ofNat 64 i), ← BitVec.add_assoc]
      rfl

theorem memBacked_iff (s : State) : s.memBacked = true ↔ ∀ c ∈ s.mem, s.backed (BitVec.ofNat 64 c.1) = true :=
  List.all_eq_true

/-- A permitted store leaves memory inside `MEM_DOMAIN`. -/
theorem memBacked_store {s : State} {kind : AccessKind} {a : Word} {n : Nat} (v : BitVec (8 * n))
    (hs : s.memBacked = true) (permitted : s.permits kind a n = true) :
    State.memBacked { s with mem := s.mem.store a n v } = true := by
  refine (memBacked_iff _).mpr fun c hc => ?_
  rcases mem_store hc with hm | ⟨i, hi, hci⟩
  · exact (memBacked_iff s).mp hs c hm
  · rw [hci, BitVec.ofNat_toNat, BitVec.setWidth_eq]
    exact (backedAll_iff s a n).mp (backedAll_of_permits permitted) i hi

theorem scVector_mod_four : scVector.toNat % 4 = 0 := by decide

theorem exec_keeps_inv {i : Instr} {s t : State} (hs : s.Inv) (h : exec i s = .next t) : t.Inv := by
  obtain ⟨hwf, hbacked, hpc⟩ := hs
  have hadvance : (s.pc + 4).toNat % 4 = 0 := add_mod_four hpc rfl
  cases nextOf_of_exec h with
  | wrote | fellThrough | compared | wroteLink => exact ⟨hwf, hbacked, hadvance⟩
  | stored ea n v permitted | storedAndWrote _ _ ea n v permitted =>
    exact ⟨store_wf ea n v hwf, memBacked_store v hbacked permitted, hadvance⟩
  | jumped _ aligned | linked _ aligned => exact ⟨hwf, hbacked, aligned hpc⟩
  | trapped => exact ⟨hwf, hbacked, scVector_mod_four⟩

/-- Settles O13, from what an instruction can go on to. -/
theorem stepKeepsTheInvariant : Obligations.StepKeepsTheInvariant := by
  intro s t hs h
  obtain ⟨_, _, hexec⟩ := exec_of_step_next h
  exact exec_keeps_inv hs hexec

/-- Settles O12, by the reset values themselves. -/
theorem resetMeetsTheInvariant : Obligations.ResetMeetsTheInvariant := ⟨⟨rfl, rfl, rfl⟩, by decide⟩

/-! ## CR and SRR0: who writes them and who reads them (R31, R33) -/

/-- CR changed by `g` and SRR0 by `h`. One of the two being the identity, the other is a change of CR or SRR0 alone. -/
def mapCrSrr0 (g : BitVec 32 → BitVec 32) (h : Word → Word) (s : State) : State :=
  { s with cr := g s.cr, srr0 := h s.srr0 }

section
variable (g : BitVec 32 → BitVec 32) (h : Word → Word) (s : State)

theorem ofRegisters_mapCrSrr0 {α : Type} {value : State → α} (reads : OfRegisters value) :
    value (mapCrSrr0 g h s) = value s := reads s (mapCrSrr0 g h s)

theorem loadResult_mapCrSrr0 (rt : RegNum) (ea : Word) (n : Nat) (extend : BitVec (8 * n) → Word) :
    loadResult (mapCrSrr0 g h s) rt ea n extend = mapNext (mapCrSrr0 g h) (loadResult s rt ea n extend) := by
  rw [loadResult_eq, loadResult_eq, apply_ite (mapNext _)]
  rfl

theorem storeResult_mapCrSrr0 (ea : Word) (n : Nat) (v : BitVec (8 * n)) :
    storeResult (mapCrSrr0 g h s) ea n v = mapNext (mapCrSrr0 g h) (storeResult s ea n v) := by
  rw [storeResult_eq, storeResult_eq, apply_ite (mapNext _)]
  rfl

theorem execStwu_mapCrSrr0 (rs : RegNum) (d : BitVec 16) (ra : RegNum) :
    execStwu rs d ra (mapCrSrr0 g h s) = mapNext (mapCrSrr0 g h) (execStwu rs d ra s) := by
  rw [execStwu, execStwu, storeUpdateResult_eq, storeUpdateResult_eq, apply_ite (mapNext _), apply_ite (mapNext _)]
  rfl

/-- A conditional branch reads of CR the one bit that BI names. -/
theorem conditionalResult_mapCrSrr0 (form : InstrWord) (bo : BitVec 5) {bi : BitVec 5} (target : Word)
    (hbit : crBit (g s.cr) bi = crBit s.cr bi) :
    conditionalResult (mapCrSrr0 g h s) form bo bi target =
      mapNext (mapCrSrr0 g h) (conditionalResult s form bo bi target) := by
  unfold conditionalResult
  cases boTest bo with
  | none => rfl
  | some test =>
    dsimp only
    rw [apply_ite (mapNext _), ← hbit]
    rfl

end

/-- Apart from compares and conditional branches, which read CR or write it, and `sc`, which writes SRR0, a change of CR
and SRR0 before an instruction is the same change after it. -/
theorem exec_mapCrSrr0 {i : Instr} {g : BitVec 32 → BitVec 32} {h : Word → Word} (s : State)
    (hg : (instrKind i ≠ .compare ∧ instrKind i ≠ .conditional) ∨ g = id) (hh : instrKind i ≠ .systemCall ∨ h = id) :
    exec i (mapCrSrr0 g h s) = mapNext (mapCrSrr0 g h) (exec i s) := by
  cases acts i with
  | register _ exec_eq reads =>
    rw [exec_eq, exec_eq, ofRegisters_mapCrSrr0 g h s reads]
    rfl
  | load _ exec_eq =>
    rw [exec_eq, exec_eq]
    exact loadResult_mapCrSrr0 g h s _ _ _ _
  | store _ exec_eq reads =>
    rw [exec_eq, exec_eq, ofRegisters_mapCrSrr0 g h s reads]
    exact storeResult_mapCrSrr0 g h s _ _ _
  | storeUpdate rs d ra => exact execStwu_mapCrSrr0 g h s rs d ra
  | jump _ exec_eq reads | link _ exec_eq reads =>
    rw [exec_eq, exec_eq, ofRegisters_mapCrSrr0 g h s reads]
    rfl
  | conditional kind exec_eq reads =>
    obtain rfl := hg.resolve_left fun hne => hne.2 kind
    rw [exec_eq, exec_eq, ofRegisters_mapCrSrr0 id h s reads]
    exact conditionalResult_mapCrSrr0 id h s _ _ _ rfl
  | compare isCompare exec_eq readsLeft readsRight =>
    have kind : instrKind i = .compare := by
      rcases isCompare with ⟨_, _, _, rfl⟩ | ⟨_, _, _, rfl⟩ <;> rfl
    obtain rfl := hg.resolve_left fun hne => hne.1 kind
    rw [exec_eq, exec_eq, ofRegisters_mapCrSrr0 id h s readsLeft, ofRegisters_mapCrSrr0 id h s readsRight]
    rfl
  | systemCall lev =>
    obtain rfl := hh.resolve_left fun hne => hne rfl
    rfl
  | toLink rs => rfl

theorem compare_of_cr_changed {i : Instr} {s t : State} (h : exec i s = .next t) (hcr : t.cr ≠ s.cr) :
    ∃ bf, ((∃ l ra rb, i = .cmp bf l ra rb) ∨ ∃ l ra si, i = .cmpi bf l ra si) ∧
      ∀ f, f ≠ bf → crField t.cr f = crField s.cr f := by
  cases nextOf_of_exec h with
  | compared bf c isCompare => exact ⟨bf, isCompare, fun _ hf => crField_setCrField_other hf s.cr c⟩
  | wrote | stored | storedAndWrote | jumped | linked | fellThrough | trapped | wroteLink => exact absurd rfl hcr

theorem systemCall_of_srr0_changed {i : Instr} {s t : State} (h : exec i s = .next t) (hsrr0 : t.srr0 ≠ s.srr0) :
    ∃ lev, i = .sc lev := by
  cases nextOf_of_exec h with
  | trapped lev isSystemCall => exact ⟨lev, isSystemCall⟩
  | wrote | stored | storedAndWrote | jumped | linked | fellThrough | compared | wroteLink => exact absurd rfl hsrr0

/-- The three conditional branches under a change of CR that spares the tested bit. -/
theorem exec_conditional_cr {i : Instr} {bo bi : BitVec 5} {bd : BitVec 14} {bh : BitVec 2} {s : State} {c : BitVec 32}
    (hi : i = .bc bo bi bd ∨ i = .bca bo bi bd ∨ i = .bclr bo bi bh) (hbit : crBit c bi = crBit s.cr bi) :
    exec i { s with cr := c } = mapNext (fun t => { t with cr := c }) (exec i s) := by
  rcases hi with rfl | rfl | rfl <;> exact conditionalResult_mapCrSrr0 (fun _ => c) id s _ _ _ hbit

/-- Settles O17: the writers from what an instruction can go on to, the readers from a change of CR before it. -/
theorem onlyComparesWriteCr : Obligations.OnlyComparesWriteCr :=
  ⟨fun _ _ _ => compare_of_cr_changed,
    fun _ s c hcompare hconditional =>
      exec_mapCrSrr0 (g := fun _ => c) (h := id) s (.inl ⟨hcompare, hconditional⟩) (.inr rfl),
    fun _ _ _ _ _ _ _ => exec_conditional_cr⟩

/-- Settles O19: the writer from what an instruction can go on to, the readers from a change of SRR0 before it. -/
theorem onlyScWritesSrr0AndNoneReadsIt : Obligations.OnlyScWritesSrr0AndNoneReadsIt := by
  refine ⟨fun _ _ _ => systemCall_of_srr0_changed, fun lev s t h => ?_, fun _ s v hkind => ?_, fun _ _ _ => rfl⟩
  · obtain rfl := next_inj (s := takeSystemCall s) h
    rfl
  · exact exec_mapCrSrr0 (g := id) (h := fun _ => v) s (.inr rfl) (.inl hkind)

/-! ## The general registers (R22) -/

/-- Settles O26, by the rules for a register read after a write. -/
theorem registersHoldWhatWasWritten : Obligations.RegistersHoldWhatWasWritten :=
  fun s r _ v => ⟨readGpr_writeGpr_same s r v, fun hne => readGpr_writeGpr_other v hne.symm, rfl⟩

end Sys2Proof.Proofs

/-! Storage (20_memory R50 to R69): which accesses may happen, what a read and a write of several bytes do byte by byte,
and which instructions reach memory at all. -/

namespace Sys2Proof.Proofs
open Sys2Proof.Machine Sys2Proof.Laws

/-! ## Which accesses are permitted (R53, R56, R58, R64) -/

theorem backed_iff (s : State) (a : Word) :
    s.backed a = true ↔ ∃ r ∈ s.params.memDomain, r.base ≤ a.toNat ∧ a.toNat < r.base + r.size := by
  simp [State.backed, Config.Region.contains]

theorem alignmentAllows_iff (s : State) (a : Word) (n : Nat) :
    s.alignmentAllows a n = true ↔ s.params.misaligned = .bytewise ∨ a.toNat % n = 0 := by
  unfold State.alignmentAllows
  cases s.params.misaligned <;> simp

theorem permits_iff (s : State) (kind : AccessKind) (a : Word) (n : Nat) :
    s.permits kind a n = true ↔ s.backedAll a n = true ∧ (kind = .fetch ∨ s.alignmentAllows a n = true) := by
  cases kind <;> simp [State.permits]

/-- Settles O21, from what each of the three checks asks. -/
theorem permittedMeansBackedAndAligned : Obligations.PermittedMeansBackedAndAligned := by
  intro s kind a n
  simp only [permits_iff, backedAll_iff, backed_iff, alignmentAllows_iff]

/-- An access with a byte outside `MEM_DOMAIN` is not permitted. -/
theorem permits_eq_false_of_not_backed {s : State} (kind : AccessKind) {a : Word} {n i : Nat} (hi : i < n)
    (hb : s.backed (a + BitVec.ofNat 64 i) = false) : s.permits kind a n = false :=
  Bool.eq_false_iff.mpr fun permitted =>
    Bool.eq_false_iff.mp hb ((backedAll_iff s a n).mp (backedAll_of_permits permitted) i hi)

/-! ## Values of several bytes (R52 to R55) -/

theorem add_one_add_ofNat (a : Word) (i : Nat) : a + 1 + BitVec.ofNat 64 i = a + BitVec.ofNat 64 (i + 1) := by
  rw [BitVec.ofNat_add, BitVec.add_comm (BitVec.ofNat 64 i), ← BitVec.add_assoc]
  rfl

theorem toNat_load_succ (m : Memory) (a : Word) (n : Nat) :
    (m.load a (n + 1)).toNat = (m.load (a + 1) n).toNat * 2 ^ 8 + (m.read a.toNat).toNat := by
  change (m.load (a + 1) n ++ m.read a.toNat : BitVec (8 * n + 8)).toNat = _
  rw [BitVec.toNat_append, ← Nat.shiftLeft_add_eq_or_of_lt (m.read a.toNat).isLt, Nat.shiftLeft_eq]

theorem toNat_load (m : Memory) (a : Word) (n : Nat) :
    (m.load a n).toNat = ∑ i ∈ Finset.range n, (m.read (a + BitVec.ofNat 64 i).toNat).toNat * 2 ^ (8 * i) := by
  induction n generalizing a with
  | zero => rfl
  | succ n ih =>
    rw [toNat_load_succ, ih, Finset.sum_range_succ', Finset.sum_mul]
    congr 1
    · refine Finset.sum_congr rfl fun i _ => ?_
      rw [add_one_add_ofNat, Nat.mul_assoc, ← Nat.pow_add]
      rfl
    · simp

theorem extractLsb'_load (m : Memory) (a : Word) {n i : Nat} (hi : i < n) :
    (m.load a n).extractLsb' (8 * i) 8 = m.read (a + BitVec.ofNat 64 i).toNat := by
  apply BitVec.eq_of_getLsbD_eq
  intro j hj
  rw [BitVec.getLsbD_extractLsb', decide_eq_true hj, Bool.true_and, load_getLsbD m a n _ (by omega),
    show (8 * i + j) / 8 = i by omega, show (8 * i + j) % 8 = j by omega]

/-- Settles O22: the value read is `Memory.load`, whose bytes are known one by one. -/
theorem readsAreLittleEndian : Obligations.ReadsAreLittleEndian :=
  fun s _ a n permitted =>
    ⟨s.mem.load a n, memRead_ok permitted, toNat_load s.mem a n, fun _ hi => extractLsb'_load s.mem a hi⟩

/-- A store in canonical memory is what R54 asks of it, as long as no byte overlaps another. -/
theorem storesBytes_store {s : State} (a : Word) {n : Nat} (v : BitVec (8 * n)) (hwf : s.mem.wf = true)
    (hn : n ≤ 2 ^ 64) : StoresBytes s { s with mem := s.mem.store a n v } a n v :=
  ⟨fun i hi => read_store_same a n v i hwf hn hi, fun x hx => byteAt_store_other a n v x hwf hx⟩

/-- Settles O23, by the two cases of `memWrite`. -/
theorem writesStoreExactlyTheirBytes : Obligations.WritesStoreExactlyTheirBytes := by
  intro s a n v hwf hn
  have hn : n ≤ 2 ^ 64 := by
    simp only [List.mem_cons, List.not_mem_nil, or_false] at hn
    omega
  refine ⟨fun permitted => ⟨_, memWrite_ok v permitted, rfl, storesBytes_store a v hwf hn⟩, ?_⟩
  rintro ⟨i, hi, hb⟩
  exact memWrite_error v (permits_eq_false_of_not_backed .write hi hb)

/-- A read inside a stored value gives the part of the value that stands there. -/
theorem load_store {m : Memory} (a : Word) {N : Nat} (v : BitVec (8 * N)) {k n : Nat} (hwf : m.wf = true)
    (hN : N ≤ 2 ^ 64) (hkn : k + n ≤ N) :
    (m.store a N v).load (a + BitVec.ofNat 64 k) n = v.extractLsb' (8 * k) (8 * n) := by
  apply BitVec.eq_of_getLsbD_eq
  intro j hj
  have hbyte : (m.store a N v).read (a + BitVec.ofNat 64 k + BitVec.ofNat 64 (j / 8)).toNat =
      v.extractLsb' (8 * (k + j / 8)) 8 := by
    rw [BitVec.add_assoc, ← BitVec.ofNat_add]
    exact read_store_same a N v _ hwf hN (by omega)
  rw [load_getLsbD _ _ _ _ hj, hbyte, BitVec.getLsbD_extractLsb', BitVec.getLsbD_extractLsb',
    decide_eq_true (Nat.mod_lt j (by decide)), decide_eq_true hj, show 8 * (k + j / 8) + j % 8 = 8 * k + j by omega]

/-- Settles O24, by the rule for a read inside a stored value. -/
theorem widthsSeeTheSameBytes : Obligations.WidthsSeeTheSameBytes :=
  fun _ a v _ _ hwf hkn => load_store (N := 8) a v hwf (by decide) hkn

/-! ## The bytes of an instruction (R57, R69) -/

/-- Settles O1, by running the decoder on the ten words. -/
theorem wordsOfTheSpecDecode : Obligations.WordsOfTheSpecDecode := by
  unfold Obligations.WordsOfTheSpecDecode
  decide

/-- Settles O9: the word fetched is the four bytes at the pc, and a step runs what it decodes to. -/
theorem stepRunsTheDecodedInstruction : Obligations.StepRunsTheDecodedInstruction := by
  intro s i backed decodes
  refine step_of_decode (fetch_ok backed) ?_
  rw [load_four]
  exact decodes

/-- Settles O25: the fetch after the `stw` reads inside the word it stored. -/
theorem aStoreIsSeenByTheNextFetch : Obligations.AStoreIsSeenByTheNextFetch := by
  intro s rs ra d hwf hea permitted
  have hexec : exec (.stw rs d ra) s =
      .next { s with mem := s.mem.store (s.pc + 4) 4 (lowWord (s.readGpr rs)) }.advance := by
    change storeResult s (s.effectiveAddress ra (signedImm d)) 4 (lowWord (s.readGpr rs)) = _
    rw [hea, storeResult_eq, if_pos permitted]
  have hload := load_store (N := 4) (k := 0) (n := 4) (s.pc + 4) (lowWord (s.readGpr rs)) hwf (by decide) (by decide)
  rw [BitVec.ofNat_eq_ofNat, BitVec.add_zero] at hload
  have backed : s.backedAll (s.pc + 4) 4 = true := backedAll_of_permits permitted
  exact ⟨_, hexec, (fetch_ok backed).trans (congrArg _ (hload.trans BitVec.extractLsb'_eq_self))⟩

/-! ## Which instructions reach memory (R51) -/

/-- A conditional branch neither reads nor writes memory. -/
theorem conditionalResult_mem (s : State) (m : Memory) (form : InstrWord) (bo bi : BitVec 5) (target : Word) :
    conditionalResult { s with mem := m } form bo bi target =
      mapNext (fun t => { t with mem := m }) (conditionalResult s form bo bi target) := by
  rcases conditionalResult_cases s form bo bi target with ⟨hbo, stop⟩ | ⟨test, hbo, ⟨ht, taken⟩ | ⟨ht, notTaken⟩⟩
  · rw [stop]
    simp only [conditionalResult, hbo, mapNext]
  · rw [taken]
    simp only [conditionalResult, hbo, ht]
    rfl
  · rw [notTaken]
    simp only [conditionalResult, hbo, ht]
    rfl

/-- Another memory before an instruction that is no load or store is that memory after it. -/
theorem exec_mem {i : Instr} (s : State) (m : Memory) (hi : reachesMemory i = false) :
    exec i { s with mem := m } = mapNext (fun t => { t with mem := m }) (exec i s) := by
  cases acts i with
  | load kind | store kind => simp [reachesMemory, kind] at hi
  | storeUpdate => cases hi
  | register _ exec_eq reads | jump _ exec_eq reads | link _ exec_eq reads =>
    rw [exec_eq, exec_eq, reads s { s with mem := m }]
    rfl
  | conditional _ exec_eq reads =>
    rw [exec_eq, exec_eq, reads s { s with mem := m }]
    exact conditionalResult_mem s m _ _ _ _
  | compare _ exec_eq readsLeft readsRight =>
    rw [exec_eq, exec_eq, readsLeft s { s with mem := m }, readsRight s { s with mem := m }]
    rfl
  | systemCall | toLink => rfl

/-- Settles O15, by the shared operation that each instruction is. -/
theorem onlyLoadsAndStoresReachMemory : Obligations.OnlyLoadsAndStoresReachMemory := fun _ => exec_mem

theorem mem_eq_of_not_reachesMemory {i : Instr} {s t : State} (hi : reachesMemory i = false)
    (h : exec i s = .next t) : t.mem = s.mem := by
  have hs := exec_mem s s.mem hi
  rw [h] at hs
  exact (congrArg State.mem (next_inj hs) :)

theorem mem_eq_of_loadResult {s t : State} {rt : RegNum} {ea : Word} {n : Nat} {extend : BitVec (8 * n) → Word}
    (h : loadResult s rt ea n extend = .next t) : t.mem = s.mem := by
  rw [loadResult_eq] at h
  split at h <;> cases h
  rfl

/-- A byte that a store changed is one that it stored. -/
theorem stored_of_byteAt_ne {s : State} {a : Word} {n : Nat} {v : BitVec (8 * n)} {x : Word} (hwf : s.mem.wf = true)
    (hx : State.byteAt { s with mem := s.mem.store a n v } x ≠ s.byteAt x) : ∃ k < n, x = a + BitVec.ofNat 64 k := by
  by_contra hnot
  exact hx (byteAt_store_other a n v x hwf fun k hk hxk => hnot ⟨k, hk, hxk⟩)

theorem stored_of_storeResult {s t : State} {ea : Word} {n : Nat} {v : BitVec (8 * n)} {x : Word}
    (hwf : s.mem.wf = true) (h : storeResult s ea n v = .next t) (hx : t.byteAt x ≠ s.byteAt x) :
    ∃ k < n, x = ea + BitVec.ofNat 64 k := by
  rw [storeResult_eq] at h
  split at h <;> cases h
  exact stored_of_byteAt_ne hwf hx

theorem stored_of_execStwu {rs ra : RegNum} {d : BitVec 16} {s t : State} {x : Word} (hwf : s.mem.wf = true)
    (h : execStwu rs d ra s = .next t) (hx : t.byteAt x ≠ s.byteAt x) :
    ∃ k < 4, x = s.effectiveAddress ra (signedImm d) + BitVec.ofNat 64 k := by
  rw [execStwu, storeUpdateResult_eq] at h
  split at h
  · cases h
  · next hra =>
    split at h <;> cases h
    rw [State.effectiveAddress, State.base, if_neg hra]
    exact stored_of_byteAt_ne hwf hx

/-- Settles O16: the five stores by what they store, every other instruction because it leaves memory alone. -/
theorem onlyStoredBytesChange : Obligations.OnlyStoredBytesChange := by
  intro i s t x hwf h hx
  cases i with
  | std rs ds ra =>
    obtain ⟨k, hk, hxk⟩ := stored_of_storeResult hwf h hx
    exact ⟨.inl rfl, ra, dsDisp ds, 8, by decide, k, hk, hxk, .inl ⟨rs, ds, rfl, rfl, rfl⟩⟩
  | stw rs d ra =>
    obtain ⟨k, hk, hxk⟩ := stored_of_storeResult hwf h hx
    exact ⟨.inl rfl, ra, signedImm d, 4, by decide, k, hk, hxk, .inr (.inl ⟨rs, d, .inl rfl, rfl, rfl⟩)⟩
  | stwu rs d ra =>
    obtain ⟨k, hk, hxk⟩ := stored_of_execStwu hwf h hx
    exact ⟨.inr rfl, ra, signedImm d, 4, by decide, k, hk, hxk, .inr (.inl ⟨rs, d, .inr rfl, rfl, rfl⟩)⟩
  | sth rs d ra =>
    obtain ⟨k, hk, hxk⟩ := stored_of_storeResult hwf h hx
    exact ⟨.inl rfl, ra, signedImm d, 2, by decide, k, hk, hxk, .inr (.inr (.inl ⟨rs, d, rfl, rfl, rfl⟩))⟩
  | stb rs d ra =>
    obtain ⟨k, hk, hxk⟩ := stored_of_storeResult hwf h hx
    exact ⟨.inl rfl, ra, signedImm d, 1, by decide, k, hk, hxk, .inr (.inr (.inr ⟨rs, d, rfl, rfl, rfl⟩))⟩
  | ld | lwz | lhz | lha | lbz => exact absurd (congrArg (Memory.read · x.toNat) (mem_eq_of_loadResult h)) hx
  | _ => exact absurd (congrArg (Memory.read · x.toNat) (mem_eq_of_not_reachesMemory rfl h)) hx

end Sys2Proof.Proofs

/-! The encoding (30_encoding R92 to R109): the encoder and the decoder undo each other, each word has one row at most,
and the words that are no instruction or no valid form stop. -/

namespace Sys2Proof.Proofs
open Sys2Proof.Machine Sys2Proof.Laws

/-! ## Decoding what was encoded (R99, R100) -/

/-- The rows of all instructions gathered from the model's lemma for each. -/
theorem exists_row_of_encode (poBc : BitVec 6) : ∀ i : Instr, ∃ r ∈ opcodeTable poBc,
    r.matchesWord (encode poBc i) = true ∧ r.build (encode poBc i) = i ∧ r.optional = i.needsExtRef
  | .add .. => OnItsRow.add ..
  | .addi .. => OnItsRow.addi ..
  | .addis .. => OnItsRow.addis ..
  | .and .. => OnItsRow.and ..
  | .andi .. => OnItsRow.andi ..
  | .extsw .. => OnItsRow.extsw ..
  | .nand .. => OnItsRow.nand ..
  | .or .. => OnItsRow.or ..
  | .ori .. => OnItsRow.ori ..
  | .subf .. => OnItsRow.subf ..
  | .xor .. => OnItsRow.xor ..
  | .xori .. => OnItsRow.xori ..
  | .ld .. => OnItsRow.ld ..
  | .lwz .. => OnItsRow.lwz ..
  | .std .. => OnItsRow.std ..
  | .stw .. => OnItsRow.stw ..
  | .stwu .. => OnItsRow.stwu ..
  | .lhz .. => OnItsRow.lhz ..
  | .lha .. => OnItsRow.lha ..
  | .sth .. => OnItsRow.sth ..
  | .lbz .. => OnItsRow.lbz ..
  | .stb .. => OnItsRow.stb ..
  | .rlwinm .. => OnItsRow.rlwinm ..
  | .sld .. => OnItsRow.sld ..
  | .srd .. => OnItsRow.srd ..
  | .srad .. => OnItsRow.srad ..
  | .sradi .. => OnItsRow.sradi ..
  | .b .. => OnItsRow.b ..
  | .ba .. => OnItsRow.ba ..
  | .bl .. => OnItsRow.bl ..
  | .bla .. => OnItsRow.bla ..
  | .bc .. => OnItsRow.bc ..
  | .bca .. => OnItsRow.bca ..
  | .bclr .. => OnItsRow.bclr ..
  | .cmp .. => OnItsRow.cmp ..
  | .cmpi .. => OnItsRow.cmpi ..
  | .sc .. => OnItsRow.sc ..
  | .mtspr .. => OnItsRow.mtspr ..
  | .mfspr .. => OnItsRow.mfspr ..
  | .rldicr .. => OnItsRow.rldicr ..

theorem decode_encode {poBc : BitVec 6} (hp : freePrimaryOpcode poBc = true) (i : Instr) (ext : Bool) :
    decode poBc ext (encode poBc i) =
      if i.needsExtRef && !ext then .error (.extRefOff (encode poBc i)) else .ok i := by
  obtain ⟨r, hr, hm, hbuild, hopt⟩ := exists_row_of_encode poBc i
  rw [decode_of_row hp hr hm, hbuild, hopt]

/-- Settles O2, by the row that each instruction's word matches. -/
theorem decodeOfEncodeIsTheInstruction : Obligations.DecodeOfEncodeIsTheInstruction := fun _ i hp =>
  ⟨by simp [decode_encode hp], fun hi => by simp [decode_encode hp, hi]⟩

/-- Settles O4: any two rows of the table fix some bit to different values. -/
theorem atMostOneRowMatches : Obligations.AtMostOneRowMatches := by
  intro poBc w j k hp hj hk
  have apart := List.pairwise_iff_get.mp (rows_apart hp)
  rcases lt_trichotomy j k with hlt | heq | hgt
  · exact (not_both_of_apart (apart j k hlt) hj hk).elim
  · exact heq
  · exact (not_both_of_apart (apart k j hgt) hk hj).elim

/-! ## Encoding what was decoded (R81, R107)

A word is each format of its own fields, as the fields of a format lie side by side and leave out reserved bits alone;
and a word that matches a row has the row's own values in the fields that the row fixes. -/

/-- Ones in the source's bits `a` to `b`. -/
def fieldMask (a b : Nat) : InstrWord := place (BitVec.allOnes (b - a + 1)) b

/-- A field read from a word and put back in its place. -/
theorem place_field (w : InstrWord) (a b : Nat) :
    place (field w a b) b = w &&& fieldMask a b := by
  apply BitVec.eq_of_getLsbD_eq
  intro j hj
  rw [fieldMask, BitVec.getLsbD_and, getLsbD_place _ _ _ hj, getLsbD_place _ _ _ hj, BitVec.getLsbD_allOnes]
  by_cases hlow : 31 - b ≤ j
  · by_cases hhigh : j - (31 - b) < b - a + 1
    · rw [getLsbD_field _ _ _ _ hhigh, Nat.add_sub_cancel' hlow]
      simp [hlow, hhigh]
    · rw [BitVec.getLsbD_of_ge _ _ (Nat.not_lt.mp hhigh)]
      simp [hhigh]
  · simp [hlow]

/-- Bits that are 0 in a word may be left out of a mask that keeps the word. -/
theorem and_eq_self_of_reserved {w m reserved : InstrWord} (hzero : w &&& reserved = 0)
    (hcover : m ||| reserved = BitVec.allOnes 32) : w &&& m = w := by
  have hsplit : w &&& (m ||| reserved) = w &&& m := by rw [BitVec.and_or_distrib_left, hzero]; exact BitVec.or_zero
  rw [← hsplit, hcover, BitVec.and_allOnes]

section
variable {w : InstrWord} {po : BitVec 6} {f1 f2 f3 : BitVec 5}

theorem xForm_eq {xo : BitVec 10} {rc : BitVec 1} (hpo : po = field w 0 5) (h1 : f1 = field w 6 10)
    (h2 : f2 = field w 11 15) (h3 : f3 = field w 16 20) (hxo : xo = field w 21 30) (hrc : rc = field w 31 31) :
    xForm po f1 f2 f3 xo rc = w := by
  simp only [xForm, hpo, h1, h2, h3, hxo, hrc, place_field, ← BitVec.and_or_distrib_left]
  exact BitVec.and_allOnes

theorem xoForm_eq {oe rc : BitVec 1} {xo : BitVec 9} (hpo : po = field w 0 5) (h1 : f1 = field w 6 10)
    (h2 : f2 = field w 11 15) (h3 : f3 = field w 16 20) (hoe : oe = field w 21 21) (hxo : xo = field w 22 30)
    (hrc : rc = field w 31 31) : xoForm po f1 f2 f3 oe xo rc = w := by
  simp only [xoForm, hpo, h1, h2, h3, hoe, hxo, hrc, place_field, ← BitVec.and_or_distrib_left]
  exact BitVec.and_allOnes

theorem xsForm_eq {sh : BitVec 6} {xo : BitVec 9} {rc : BitVec 1} (hpo : po = field w 0 5) (h1 : f1 = field w 6 10)
    (h2 : f2 = field w 11 15) (hsh : sh = field w 30 30 ++ field w 16 20) (hxo : xo = field w 21 29)
    (hrc : rc = field w 31 31) : xsForm po f1 f2 sh xo rc = w := by
  have hlow : sh.extractLsb' 0 5 = field w 16 20 := hsh ▸ BitVec.extractLsb'_append_eq_right
  have hhigh : sh.extractLsb' 5 1 = field w 30 30 := hsh ▸ BitVec.extractLsb'_append_eq_left
  simp only [xsForm, hpo, h1, h2, hlow, hhigh, hxo, hrc, place_field, ← BitVec.and_or_distrib_left]
  exact BitVec.and_allOnes

theorem dForm_eq {imm : BitVec 16} (hpo : po = field w 0 5) (h1 : f1 = field w 6 10) (h2 : f2 = field w 11 15)
    (himm : imm = field w 16 31) : dForm po f1 f2 imm = w := by
  simp only [dForm, hpo, h1, h2, himm, place_field, ← BitVec.and_or_distrib_left]
  exact BitVec.and_allOnes

theorem dsForm_eq {ds : BitVec 14} {xo : BitVec 2} (hpo : po = field w 0 5) (h1 : f1 = field w 6 10)
    (h2 : f2 = field w 11 15) (hds : ds = field w 16 29) (hxo : xo = field w 30 31) : dsForm po f1 f2 ds xo = w := by
  simp only [dsForm, hpo, h1, h2, hds, hxo, place_field, ← BitVec.and_or_distrib_left]
  exact BitVec.and_allOnes

theorem mForm_eq {mb me : BitVec 5} {rc : BitVec 1} (hpo : po = field w 0 5) (h1 : f1 = field w 6 10)
    (h2 : f2 = field w 11 15) (h3 : f3 = field w 16 20) (hmb : mb = field w 21 25) (hme : me = field w 26 30)
    (hrc : rc = field w 31 31) : mForm po f1 f2 f3 mb me rc = w := by
  simp only [mForm, hpo, h1, h2, h3, hmb, hme, hrc, place_field, ← BitVec.and_or_distrib_left]
  exact BitVec.and_allOnes

theorem bForm_eq {bd : BitVec 14} {aa lk : BitVec 1} (hpo : po = field w 0 5) (h1 : f1 = field w 6 10)
    (h2 : f2 = field w 11 15) (hbd : bd = field w 16 29) (haa : aa = field w 30 30) (hlk : lk = field w 31 31) :
    bForm po f1 f2 bd aa lk = w := by
  simp only [bForm, hpo, h1, h2, hbd, haa, hlk, place_field, ← BitVec.and_or_distrib_left]
  exact BitVec.and_allOnes

theorem iForm_eq {li : BitVec 24} {aa lk : BitVec 1} (hpo : po = field w 0 5) (hli : li = field w 6 29)
    (haa : aa = field w 30 30) (hlk : lk = field w 31 31) : iForm po li aa lk = w := by
  simp only [iForm, hpo, hli, haa, hlk, place_field, ← BitVec.and_or_distrib_left]
  exact BitVec.and_allOnes

theorem xlForm_eq {bh : BitVec 2} {xo : BitVec 10} {lk : BitVec 1} (hpo : po = field w 0 5) (h1 : f1 = field w 6 10)
    (h2 : f2 = field w 11 15) (hbh : bh = field w 19 20) (hxo : xo = field w 21 30) (hlk : lk = field w 31 31)
    (hreserved : w &&& fieldMask 16 18 = 0) : xlForm po f1 f2 bh xo lk = w := by
  simp only [xlForm, hpo, h1, h2, hbh, hxo, hlk, place_field, ← BitVec.and_or_distrib_left]
  exact and_eq_self_of_reserved hreserved rfl

theorem scForm_eq {lev : BitVec 7} (hpo : po = field w 0 5) (hlev : lev = field w 20 26) (hone : 1#1 = field w 30 30)
    (hreserved : w &&& (fieldMask 6 19 ||| fieldMask 27 29 ||| fieldMask 31 31) = 0) : scForm po lev = w := by
  simp only [scForm, hpo, hlev, hone, place_field, ← BitVec.and_or_distrib_left]
  exact and_eq_self_of_reserved hreserved rfl

theorem xfxForm_eq {spr xo : BitVec 10} (hpo : po = field w 0 5) (h1 : f1 = field w 6 10)
    (hlow : spr.extractLsb' 0 5 = field w 11 15) (hhigh : spr.extractLsb' 5 5 = field w 16 20)
    (hxo : xo = field w 21 30) (hreserved : w &&& fieldMask 31 31 = 0) : xfxForm po f1 spr xo = w := by
  simp only [xfxForm, hpo, h1, hlow, hhigh, hxo, place_field, ← BitVec.and_or_distrib_left]
  exact and_eq_self_of_reserved hreserved rfl

theorem mdForm_eq {sh me : BitVec 6} {xo : BitVec 3} {rc : BitVec 1} (hpo : po = field w 0 5) (h1 : f1 = field w 6 10)
    (h2 : f2 = field w 11 15) (hsh : sh = field w 30 30 ++ field w 16 20) (hme : me = field w 26 26 ++ field w 21 25)
    (hxo : xo = field w 27 29) (hrc : rc = field w 31 31) : mdForm po f1 f2 sh me xo rc = w := by
  have hshLow : sh.extractLsb' 0 5 = field w 16 20 := hsh ▸ BitVec.extractLsb'_append_eq_right
  have hshHigh : sh.extractLsb' 5 1 = field w 30 30 := hsh ▸ BitVec.extractLsb'_append_eq_left
  have hmeLow : me.extractLsb' 0 5 = field w 21 25 := hme ▸ BitVec.extractLsb'_append_eq_right
  have hmeHigh : me.extractLsb' 5 1 = field w 26 26 := hme ▸ BitVec.extractLsb'_append_eq_left
  simp only [mdForm, hpo, h1, h2, hshLow, hshHigh, hmeLow, hmeHigh, hxo, hrc, place_field,
    ← BitVec.and_or_distrib_left]
  exact BitVec.and_allOnes

/-- BF, the reserved bit and L fill the place of a register field (R88). -/
theorem compareField_eq {bf : BitVec 3} {l : BitVec 1} (hbf : bf = field w 6 8) (hzero : 0#1 = field w 9 9)
    (hl : l = field w 10 10) : compareField bf l = field w 6 10 := by
  calc compareField bf l
      = field w 6 8 ++ field w 9 9 ++ field w 10 10 := by rw [compareField, hbf, hzero, hl]
    _ = field w 6 9 ++ field w 10 10 :=
      congrArg (· ++ field w 10 10) (BitVec.extractLsb'_append_extractLsb'_eq_extractLsb' rfl)
    _ = field w 6 10 := BitVec.extractLsb'_append_extractLsb'_eq_extractLsb' rfl

end

/-- What a matching word has in a field that the row fixes. -/
theorem fixedField_eq {r : Row} {w : InstrWord} (hm : r.matchesWord w = true) (a b : Nat)
    {v : BitVec (b - a + 1)}
    (hfixed : field r.mask a b = BitVec.allOnes _ ∧ field r.pattern a b = v := by decide) : v = field w a b := by
  obtain ⟨hmask, hpattern⟩ := hfixed
  rw [← hpattern, ← field_of_matches hm, hmask, BitVec.and_allOnes]

/-- What a matching word has in the bits that the row asks to be 0. -/
theorem reserved_of_matches {r : Row} {w : InstrWord} (hm : r.matchesWord w = true) (reserved : InstrWord)
    (hfixed : r.mask &&& reserved = reserved ∧ r.pattern &&& reserved = 0 := by decide) : w &&& reserved = 0 := by
  obtain ⟨hmask, hpattern⟩ := hfixed
  rw [← hmask, ← BitVec.and_assoc, beq_iff_eq.mp hm, hpattern]

/-- The encoder gives back every word that the row `r` matches. -/
def Reencodes (poBc : BitVec 6) (r : Row) : Prop :=
  ∀ w, r.matchesWord w = true → encode poBc (r.build w) = w

/-- The patterns of `bc` and `bca` in the fields their rows fix. -/
theorem conditionalRows_fields : ∀ po : BitVec 6, (field (po ++ 0#26) 0 5 = po ∧ field (po ++ 2#26) 0 5 = po) ∧
    (field (po ++ 0#26) 30 30 = 0 ∧ field (po ++ 2#26) 30 30 = 1) ∧
    field (po ++ 0#26) 31 31 = 0 ∧ field (po ++ 2#26) 31 31 = 0 := by decide

section
variable (poBc : BitVec 6)

theorem reencodes_arithmeticRows : ∀ r ∈ arithmeticRows, Reencodes poBc r := by
  simp only [arithmeticRows, List.forall_mem_cons]
  exact ⟨
    fun _ hm => xoForm_eq (fixedField_eq hm 0 5) rfl rfl rfl (fixedField_eq hm 21 21) (fixedField_eq hm 22 30)
      (fixedField_eq hm 31 31),
    fun _ hm => dForm_eq (fixedField_eq hm 0 5) rfl rfl rfl,
    fun _ hm => dForm_eq (fixedField_eq hm 0 5) rfl rfl rfl,
    fun _ hm => xForm_eq (fixedField_eq hm 0 5) rfl rfl rfl (fixedField_eq hm 21 30) (fixedField_eq hm 31 31),
    fun _ hm => dForm_eq (fixedField_eq hm 0 5) rfl rfl rfl,
    fun _ hm => xForm_eq (fixedField_eq hm 0 5) rfl rfl (fixedField_eq hm 16 20) (fixedField_eq hm 21 30)
      (fixedField_eq hm 31 31),
    fun _ hm => xForm_eq (fixedField_eq hm 0 5) rfl rfl rfl (fixedField_eq hm 21 30) (fixedField_eq hm 31 31),
    fun _ hm => xForm_eq (fixedField_eq hm 0 5) rfl rfl rfl (fixedField_eq hm 21 30) (fixedField_eq hm 31 31),
    fun _ hm => dForm_eq (fixedField_eq hm 0 5) rfl rfl rfl,
    fun _ hm => xoForm_eq (fixedField_eq hm 0 5) rfl rfl rfl (fixedField_eq hm 21 21) (fixedField_eq hm 22 30)
      (fixedField_eq hm 31 31),
    fun _ hm => xForm_eq (fixedField_eq hm 0 5) rfl rfl rfl (fixedField_eq hm 21 30) (fixedField_eq hm 31 31),
    fun _ hm => dForm_eq (fixedField_eq hm 0 5) rfl rfl rfl,
    List.forall_mem_nil _⟩

theorem reencodes_dataRows : ∀ r ∈ dataRows, Reencodes poBc r := by
  simp only [dataRows, List.forall_mem_cons]
  exact ⟨
    fun _ hm => dsForm_eq (fixedField_eq hm 0 5) rfl rfl rfl (fixedField_eq hm 30 31),
    fun _ hm => dForm_eq (fixedField_eq hm 0 5) rfl rfl rfl,
    fun _ hm => dsForm_eq (fixedField_eq hm 0 5) rfl rfl rfl (fixedField_eq hm 30 31),
    fun _ hm => dForm_eq (fixedField_eq hm 0 5) rfl rfl rfl,
    fun _ hm => dForm_eq (fixedField_eq hm 0 5) rfl rfl rfl,
    fun _ hm => dForm_eq (fixedField_eq hm 0 5) rfl rfl rfl,
    fun _ hm => dForm_eq (fixedField_eq hm 0 5) rfl rfl rfl,
    fun _ hm => dForm_eq (fixedField_eq hm 0 5) rfl rfl rfl,
    fun _ hm => dForm_eq (fixedField_eq hm 0 5) rfl rfl rfl,
    fun _ hm => dForm_eq (fixedField_eq hm 0 5) rfl rfl rfl,
    List.forall_mem_nil _⟩

theorem reencodes_shiftRows : ∀ r ∈ shiftRows, Reencodes poBc r := by
  simp only [shiftRows, List.forall_mem_cons]
  exact ⟨
    fun _ hm => mForm_eq (fixedField_eq hm 0 5) rfl rfl rfl rfl rfl (fixedField_eq hm 31 31),
    fun _ hm => xForm_eq (fixedField_eq hm 0 5) rfl rfl rfl (fixedField_eq hm 21 30) (fixedField_eq hm 31 31),
    fun _ hm => xForm_eq (fixedField_eq hm 0 5) rfl rfl rfl (fixedField_eq hm 21 30) (fixedField_eq hm 31 31),
    fun _ hm => xForm_eq (fixedField_eq hm 0 5) rfl rfl rfl (fixedField_eq hm 21 30) (fixedField_eq hm 31 31),
    fun _ hm => xsForm_eq (fixedField_eq hm 0 5) rfl rfl rfl (fixedField_eq hm 21 29) (fixedField_eq hm 31 31),
    List.forall_mem_nil _⟩

theorem reencodes_branchRows : ∀ r ∈ branchRows, Reencodes poBc r := by
  simp only [branchRows, List.forall_mem_cons]
  exact ⟨
    fun _ hm => iForm_eq (fixedField_eq hm 0 5) rfl (fixedField_eq hm 30 30) (fixedField_eq hm 31 31),
    fun _ hm => iForm_eq (fixedField_eq hm 0 5) rfl (fixedField_eq hm 30 30) (fixedField_eq hm 31 31),
    fun _ hm => iForm_eq (fixedField_eq hm 0 5) rfl (fixedField_eq hm 30 30) (fixedField_eq hm 31 31),
    fun _ hm => iForm_eq (fixedField_eq hm 0 5) rfl (fixedField_eq hm 30 30) (fixedField_eq hm 31 31),
    fun _ hm => xlForm_eq (fixedField_eq hm 0 5) rfl rfl rfl (fixedField_eq hm 21 30) (fixedField_eq hm 31 31)
      (reserved_of_matches hm _),
    List.forall_mem_nil _⟩

theorem reencodes_compareAndCallRows : ∀ r ∈ compareAndCallRows, Reencodes poBc r := by
  simp only [compareAndCallRows, List.forall_mem_cons]
  exact ⟨
    fun _ hm => xForm_eq (fixedField_eq hm 0 5) (compareField_eq rfl (fixedField_eq hm 9 9) rfl) rfl rfl
      (fixedField_eq hm 21 30) (fixedField_eq hm 31 31),
    fun _ hm => dForm_eq (fixedField_eq hm 0 5) (compareField_eq rfl (fixedField_eq hm 9 9) rfl) rfl rfl,
    fun _ hm => scForm_eq (fixedField_eq hm 0 5) rfl (fixedField_eq hm 30 30) (reserved_of_matches hm _),
    List.forall_mem_nil _⟩

theorem reencodes_optionalRows : ∀ r ∈ optionalRows, Reencodes poBc r := by
  simp only [optionalRows, List.forall_mem_cons]
  exact ⟨
    fun _ hm => xfxForm_eq (fixedField_eq hm 0 5) rfl (fixedField_eq hm 11 15) (fixedField_eq hm 16 20)
      (fixedField_eq hm 21 30) (reserved_of_matches hm _),
    fun _ hm => xfxForm_eq (fixedField_eq hm 0 5) rfl (fixedField_eq hm 11 15) (fixedField_eq hm 16 20)
      (fixedField_eq hm 21 30) (reserved_of_matches hm _),
    fun _ hm => mdForm_eq (fixedField_eq hm 0 5) rfl rfl rfl rfl (fixedField_eq hm 27 29) (fixedField_eq hm 31 31),
    List.forall_mem_nil _⟩

theorem reencodes_conditionalRows : ∀ r ∈ conditionalRows poBc, Reencodes poBc r := by
  simp only [conditionalRows, List.forall_mem_cons]
  obtain ⟨⟨bcPo, bcaPo⟩, ⟨bcAa, bcaAa⟩, bcLk, bcaLk⟩ := conditionalRows_fields poBc
  obtain ⟨maskPo, maskAa, maskLk⟩ : field 0xFC000003 0 5 = BitVec.allOnes 6 ∧
    field 0xFC000003 30 30 = BitVec.allOnes 1 ∧ field 0xFC000003 31 31 = BitVec.allOnes 1 := by decide
  exact ⟨
    fun _ hm => bForm_eq (fixedField_eq hm 0 5 ⟨maskPo, bcPo⟩) rfl rfl rfl (fixedField_eq hm 30 30 ⟨maskAa, bcAa⟩)
      (fixedField_eq hm 31 31 ⟨maskLk, bcLk⟩),
    fun _ hm => bForm_eq (fixedField_eq hm 0 5 ⟨maskPo, bcaPo⟩) rfl rfl rfl (fixedField_eq hm 30 30 ⟨maskAa, bcaAa⟩)
      (fixedField_eq hm 31 31 ⟨maskLk, bcaLk⟩),
    List.forall_mem_nil _⟩

theorem reencodes_opcodeTable : ∀ r ∈ opcodeTable poBc, Reencodes poBc r := by
  simp only [opcodeTable, fixedRows, List.forall_mem_append]
  exact ⟨⟨⟨⟨⟨⟨reencodes_arithmeticRows poBc, reencodes_dataRows poBc⟩, reencodes_shiftRows poBc⟩,
    reencodes_branchRows poBc⟩, reencodes_compareAndCallRows poBc⟩, reencodes_optionalRows poBc⟩,
    reencodes_conditionalRows poBc⟩

end

/-- Settles O3: what decodes matched a row, and the encoder gives back every word of each row. -/
theorem encodeOfDecodeIsTheWord : Obligations.EncodeOfDecodeIsTheWord := by
  intro poBc ext w i h
  rcases decode_cases poBc ext w with ⟨r, hr, hm, _, hd⟩ | ⟨_, _, _, _, hd⟩ | ⟨_, hd⟩
  · cases hd.symm.trans h
    exact reencodes_opcodeTable poBc r hr w hm
  · cases hd.symm.trans h
  · cases hd.symm.trans h

/-! ## Words that are no instruction (R106 to R108) -/

theorem illegalIn_of_no_row {s : State} {w : InstrWord}
    (h : ∀ r ∈ opcodeTable s.params.poBc, r.matchesWord w = false) : IllegalIn s w :=
  fun hfetch => step_of_illegal hfetch (decode_of_no_row h s.params.extRef)

theorem fixedRows_primary : ∀ r ∈ fixedRows, field r.mask 0 5 = BitVec.allOnes 6 ∧
    field r.pattern 0 5 ∈ otherPrimaryOpcodes := by decide

theorem conditionalRows_primary : ∀ poBc, ∀ r ∈ conditionalRows poBc,
    (field r.mask 0 5 = BitVec.allOnes 6 ∧ field r.pattern 0 5 = poBc) ∧
      field r.mask 31 31 = BitVec.allOnes 1 ∧ field r.pattern 31 31 = 0 := by decide

/-- A word has the primary opcode of the row it matches. -/
theorem primary_of_fixedRow {r : Row} {w : InstrWord} (hr : r ∈ fixedRows) (hm : r.matchesWord w = true) :
    field r.pattern 0 5 = field w 0 5 :=
  fixedField_eq hm 0 5 ⟨(fixedRows_primary r hr).1, rfl⟩

theorem primary_of_conditionalRow {poBc : BitVec 6} {r : Row} {w : InstrWord} (hr : r ∈ conditionalRows poBc)
    (hm : r.matchesWord w = true) : poBc = field w 0 5 :=
  fixedField_eq hm 0 5 (conditionalRows_primary poBc r hr).1

theorem freePrimaryOpcode_iff (po : BitVec 6) : freePrimaryOpcode po = true ↔ po ∉ otherPrimaryOpcodes := by
  simp [freePrimaryOpcode]

/-- A word whose primary opcode R95 uses is illegal if it matches none of that opcode's rows. -/
theorem illegal_of_rows {w : InstrWord} {po : BitVec 6} (hpo : field w 0 5 = po) (hused : po ∈ otherPrimaryOpcodes)
    (h : ∀ r ∈ fixedRows, field r.pattern 0 5 = po → r.matchesWord w = false) : Illegal w := by
  intro s hfree
  refine illegalIn_of_no_row fun r hr => ?_
  rcases List.mem_append.mp hr with hfixed | hcond
  · cases hm : r.matchesWord w with
    | false => rfl
    | true => exact hm.symm.trans (h r hfixed ((primary_of_fixedRow hfixed hm).trans hpo))
  · refine Bool.eq_false_iff.mpr fun hm => (freePrimaryOpcode_iff _).mp hfree ?_
    rwa [primary_of_conditionalRow hcond hm, hpo]

/-- A word is illegal if every row of its primary opcode that agrees with it in one field asks for another value in a
second one. -/
theorem illegal_of_fields {w : InstrWord} {po : BitVec 6} (hpo : field w 0 5 = po) (hused : po ∈ otherPrimaryOpcodes)
    {c d a b : Nat} {x : BitVec (d - c + 1)} {v : BitVec (b - a + 1)} (hx : field w c d = x) (hv : field w a b ≠ v)
    (h : ∀ r ∈ fixedRows, field r.pattern 0 5 = po → x &&& field r.mask c d = field r.pattern c d →
      field r.mask a b = BitVec.allOnes _ ∧ field r.pattern a b = v) : Illegal w := by
  refine illegal_of_rows hpo hused fun r hr hprimary => Bool.eq_false_iff.mpr fun hm => hv ?_
  exact (fixedField_eq hm a b (h r hr hprimary (hx ▸ field_of_matches hm c d))).symm

theorem illegal_of_field {w : InstrWord} {po : BitVec 6} (hpo : field w 0 5 = po) (hused : po ∈ otherPrimaryOpcodes)
    {a b : Nat} {v : BitVec (b - a + 1)} (hv : field w a b ≠ v)
    (h : ∀ r ∈ fixedRows, field r.pattern 0 5 = po →
      field r.mask a b = BitVec.allOnes _ ∧ field r.pattern a b = v) : Illegal w :=
  illegal_of_fields hpo hused hpo hv fun r hr hprimary _ => h r hr hprimary

theorem ne_zero_of_eq_one {x : BitVec 1} (h : x = 1) : x ≠ 0 := h.trans_ne (by decide)

/-- No instruction under the primary opcode 31 has Rc = 1. -/
theorem illegal_of_record {w : InstrWord} (hpo : field w 0 5 = 31) (hrc : field w 31 31 = 1) : Illegal w :=
  illegal_of_field hpo (by decide) (ne_zero_of_eq_one hrc) (by decide)

/-- Settles O5: the rows of the primary opcodes 31 and 21 ask for Rc = 0, those of `add` and `subf` for OE = 0. -/
theorem recordAndOverflowWordsAreIllegal : Obligations.RecordAndOverflowWordsAreIllegal := by
  refine ⟨fun w hpo _ hrc => illegal_of_record hpo hrc, fun w hpo hxo hset => ?_,
    fun w hpo _ hrc => illegal_of_record hpo hrc,
    fun w hpo hrc => illegal_of_field hpo (by decide) (ne_zero_of_eq_one hrc) (by decide)⟩
  rcases hset with hoe | hrc
  · have hxo : field w 22 30 = 266 ∨ field w 22 30 = 40 := by
      simpa [BitVec.toNat_eq] using hxo
    rcases hxo with hadd | hsubf
    · exact illegal_of_fields hpo (by decide) hadd (ne_zero_of_eq_one hoe) (by decide)
    · exact illegal_of_fields hpo (by decide) hsubf (ne_zero_of_eq_one hoe) (by decide)
  · exact illegal_of_record hpo hrc

/-! ## Words as the spec writes them

The spec gathers the constant fields in one number. Their terms and the operands' are given names before they are
reordered, as the tactic would otherwise compute with them. -/

/-- An instruction not behind `EXT_REF` has the encoding `w` if it encodes to `w`. -/
theorem encodes_of_encode {w : InstrWord} {i : Instr} (hi : i.needsExtRef = false)
    (h : ∀ poBc, encode poBc i = w) : Encodes w i := by
  refine fun poBc hp => ⟨h poBc, fun ext => ?_⟩
  rw [← h poBc, decode_encode hp, hi]
  rfl

theorem encodes_bclr (bo bi : BitVec 5) (bh : BitVec 2) :
    Encodes (0x4C000020 ||| fieldAt bo 21 ||| fieldAt bi 16 ||| fieldAt bh 11) (.bclr bo bi bh) := by
  refine encodes_of_encode rfl fun _ => ?_
  change place 19#6 5 ||| place bo 10 ||| place bi 15 ||| place bh 20 ||| place 16#10 30 ||| place 0#1 31 =
    (place 19#6 5 ||| place 16#10 30 ||| place 0#1 31) ||| place bo 10 ||| place bi 15 ||| place bh 20
  generalize place 19#6 5 = po, place bo 10 = f1, place bi 15 = f2, place bh 20 = f3, place 16#10 30 = xo,
    place 0#1 31 = lk
  ac_rfl

theorem encodes_sc (lev : BitVec 7) : Encodes (0x44000002 ||| fieldAt lev 5) (.sc lev) := by
  refine encodes_of_encode rfl fun _ => ?_
  change place 17#6 5 ||| place lev 26 ||| place 1#1 30 = (place 17#6 5 ||| place 1#1 30) ||| place lev 26
  ac_rfl

/-- Settles O6: each row asks for 0 in its reserved bits, and leaves BH and LEV free. -/
theorem reservedBitsMustBeZero : Obligations.ReservedBitsMustBeZero := by
  refine ⟨fun w hpo hxo hset => illegal_of_fields hpo (by decide) hxo hset (by decide), fun w hpo hxo hset => ?_,
    fun w hpo hset => illegal_of_field hpo (by decide) (ne_zero_of_eq_one hset) (by decide),
    fun w hpo hset => illegal_of_field hpo (by decide) hset (by decide), fun w hpo hset => ?_,
    fun w hpo _ hrc => illegal_of_record hpo hrc, encodes_bclr, encodes_sc⟩
  · rcases hset with hbit | hrc
    · exact illegal_of_fields hpo (by decide) hxo (ne_zero_of_eq_one hbit) (by decide)
    · exact illegal_of_record hpo hrc
  · rcases hset with hset | hset | hset
    · exact illegal_of_field hpo (by decide) hset (by decide)
    · exact illegal_of_field hpo (by decide) hset (by decide)
    · exact illegal_of_field hpo (by decide) hset (by decide)

/-- The extended opcodes under 31 (R108): a row fixes all ten bits, or all but the last (`sradi`). -/
theorem extendedOpcodes_of_31 : ∀ r ∈ fixedRows, field r.pattern 0 5 = 31 →
    (field r.mask 21 30 = BitVec.allOnes 10 ∧ (field r.pattern 21 30).toNat ∈ [0, 27, 28, 40, 266, 316, 339, 826, 827,
      444, 467, 476, 539, 794, 986]) ∨ (field r.mask 21 30 = 1022 ∧ field r.pattern 21 30 = 826) := by decide

theorem toNat_of_and_even_mask : ∀ x : BitVec 10, x &&& 1022 = 826 → x.toNat = 826 ∨ x.toNat = 827 := by decide

theorem illegal_of_extendedOpcode {w : InstrWord} (hpo : field w 0 5 = 31)
    (hxo : (field w 21 30).toNat ∉ [0, 27, 28, 40, 266, 316, 339, 826, 827, 444, 467, 476, 539, 794, 986]) :
    Illegal w := by
  refine illegal_of_rows hpo (by decide) fun r hr hprimary => Bool.eq_false_iff.mpr fun hm => hxo ?_
  rcases extendedOpcodes_of_31 r hr hprimary with ⟨hmask, hmem⟩ | ⟨hmask, hpattern⟩
  · rw [← fixedField_eq hm 21 30 ⟨hmask, rfl⟩]
    exact hmem
  · have hx := field_of_matches hm 21 30
    rw [hmask, hpattern] at hx
    rcases toNat_of_and_even_mask _ hx with h | h <;> simp [h]

/-- No word with an unused primary opcode matches a row. -/
theorem illegalIn_of_unused_primary {s : State} {w : InstrWord} (hfixed : field w 0 5 ∉ otherPrimaryOpcodes)
    (hcond : field w 0 5 ≠ s.params.poBc) : IllegalIn s w := by
  refine illegalIn_of_no_row fun r hr => Bool.eq_false_iff.mpr fun hm => ?_
  rcases List.mem_append.mp hr with hr | hr
  · exact hfixed (primary_of_fixedRow hr hm ▸ (fixedRows_primary r hr).2)
  · exact hcond (primary_of_conditionalRow hr hm).symm

theorem illegalIn_of_conditional_link {s : State} {w : InstrWord} (hfree : freePrimaryOpcode s.params.poBc = true)
    (hpo : field w 0 5 = s.params.poBc) (hlk : field w 31 31 = 1) : IllegalIn s w := by
  refine illegalIn_of_no_row fun r hr => Bool.eq_false_iff.mpr fun hm => ?_
  rcases List.mem_append.mp hr with hr | hr
  · refine (freePrimaryOpcode_iff _).mp hfree ?_
    rw [← hpo, ← primary_of_fixedRow hr hm]
    exact (fixedRows_primary r hr).2
  · exact ne_zero_of_eq_one hlk (fixedField_eq hm 31 31 (conditionalRows_primary _ r hr).2).symm

theorem illegalIn_of_optional {s : State} {i : Instr} (hfree : freePrimaryOpcode s.params.poBc = true)
    (hext : s.params.extRef = false) (hi : i.needsExtRef = true) : IllegalIn s (encode s.params.poBc i) := by
  intro hfetch
  refine step_of_illegal (e := .extRefOff (encode s.params.poBc i)) hfetch ?_
  rw [decode_encode hfree, hi, hext]
  rfl

/-- Settles O7, each of R108's cases by what the rows of its primary opcode ask for. -/
theorem unassignedWordsAreIllegal : Obligations.UnassignedWordsAreIllegal := by
  refine ⟨fun _ _ => illegalIn_of_no_row, fun s w hfixed hcond => ?_, fun _ => illegal_of_extendedOpcode,
    fun _ _ => illegalIn_of_conditional_link, fun w hpo hset => ?_, fun w hpo hset => ?_, fun w hpo hzero => ?_,
    fun w hpo hset => ?_, fun w hpo hxo hspr => ?_, fun _ _ => illegalIn_of_optional⟩
  · refine illegalIn_of_unused_primary (fun hmem => hfixed ?_) hcond
    exact List.mem_map_of_mem (f := BitVec.toNat) hmem
  · rcases hset with hxo | hlk
    · exact illegal_of_field hpo (by decide) hxo (by decide)
    · exact illegal_of_field hpo (by decide) (ne_zero_of_eq_one hlk) (by decide)
  · rcases hpo with hpo | hpo
    · exact illegal_of_field hpo (by decide) hset (by decide)
    · exact illegal_of_field hpo (by decide) hset (by decide)
  · refine illegal_of_field (a := 30) (b := 30) (v := 1) hpo (by decide) (fun hone => ?_) (by decide)
    cases hzero.symm.trans hone
  · rcases hset with hxo | hrc
    · exact illegal_of_field hpo (by decide) hxo (by decide)
    · exact illegal_of_field hpo (by decide) (ne_zero_of_eq_one hrc) (by decide)
  · have hxo : field w 21 30 = 467 ∨ field w 21 30 = 339 := by
      simpa [BitVec.toNat_eq] using hxo
    rcases hxo with hxo | hxo
    · exact illegal_of_fields hpo (by decide) hxo hspr (by decide)
    · exact illegal_of_fields hpo (by decide) hxo hspr (by decide)

/-! ## Invalid forms (R109, R157, R187) -/

theorem boTest_eq_none {bo : BitVec 5} (halways : ¬(bo.getLsbD 4 = true ∧ bo.getLsbD 2 = true)) (h12 : bo ≠ 12)
    (h4 : bo ≠ 4) : boTest bo = none := by
  simp only [boTest, Bool.and_eq_true, if_neg halways, if_neg h12, if_neg h4]

theorem conditionalResult_invalid {bo : BitVec 5} (h : boTest bo = none) (s : State) (form : InstrWord)
    (bi : BitVec 5) (target : Word) : conditionalResult s form bo bi target = .fault (.invalidForm form) := by
  simp only [conditionalResult, h]

/-- A step that fetches the encoding of an instruction not behind `EXT_REF` runs it. -/
theorem step_of_fetch_encode {s : State} {i : Instr} (hfree : freePrimaryOpcode s.params.poBc = true)
    (hi : i.needsExtRef = false) (hfetch : fetch s = .ok (encode s.params.poBc i)) : step s = exec i s := by
  refine step_of_decode hfetch ((decode_encode hfree i _).trans ?_)
  rw [hi]
  rfl

theorem encode_stwu_zero_base (poBc : BitVec 6) (rs : RegNum) (d : BitVec 16) :
    encode poBc (.stwu rs d 0) = 0x94000000 ||| fieldAt rs 21 ||| fieldAt d 0 := by
  change place 37#6 5 ||| place rs 10 ||| place 0#5 15 ||| place d 31 =
    (place 37#6 5 ||| place 0#5 15) ||| place rs 10 ||| place d 31
  generalize place 37#6 5 = po, place rs 10 = f1, place 0#5 15 = f2, place d 31 = imm
  ac_rfl

/-- Settles O8: the word is the instruction's encoding, so that the step runs the invalid form. -/
theorem invalidFormsStop : Obligations.InvalidFormsStop := by
  refine ⟨fun s rs d hfree hfetch => ?_, fun s bo bi bd bh w hfree halways h12 h4 hw hfetch => ?_⟩
  · rw [← encode_stwu_zero_base s.params.poBc] at hfetch ⊢
    exact step_of_fetch_encode hfree rfl hfetch
  · have hbo := boTest_eq_none halways h12 h4
    rcases hw with rfl | rfl | rfl <;>
      exact (step_of_fetch_encode hfree rfl hfetch).trans (conditionalResult_invalid hbo s _ bi _)

end Sys2Proof.Proofs

/-! Compares (44_compare R194 to R197): one field of CR takes the signed comparison. -/

namespace Sys2Proof.Proofs
open Sys2Proof.Machine Sys2Proof.Laws

/-- A compare goes on with CR changed in field `bf` alone. -/
theorem comparesInto_of_compareResult (s : State) (bf : BitVec 3) (a b : Word) :
    ∃ c, compareResult s bf a b = .next { s with cr := c, pc := s.pc + 4 } ∧
      ComparesInto s.cr c bf a.toInt b.toInt :=
  ⟨setCrField s.cr bf (compareCode a b), rfl, (crField_setCrField_same _ _ _).trans (compareCode_eq a b),
    fun _ hf => crField_setCrField_other hf _ _⟩

theorem toInt_sextLowWord (v : Word) : (sextLowWord v).toInt = (v.extractLsb' 0 32).toInt :=
  BitVec.toInt_signExtend_of_le (by decide)

theorem toInt_signedImm (si : BitVec 16) : (signedImm si).toInt = si.toInt :=
  BitVec.toInt_signExtend_of_le (by decide)

theorem encodes_cmp (bf : BitVec 3) (l : BitVec 1) (ra rb : RegNum) :
    Encodes (0x7C000000 ||| fieldAt bf 23 ||| fieldAt l 21 ||| fieldAt ra 16 ||| fieldAt rb 11) (.cmp bf l ra rb) := by
  refine encodes_of_encode rfl fun _ => ?_
  change place 31#6 5 ||| place (compareField bf l) 10 ||| place ra 15 ||| place rb 20 ||| 0#32 ||| 0#32 =
    place 31#6 5 ||| place bf 8 ||| place l 10 ||| place ra 15 ||| place rb 20
  rw [place_compareField, BitVec.or_zero, BitVec.or_zero, ← BitVec.or_assoc]

theorem encodes_cmpi (bf : BitVec 3) (l : BitVec 1) (ra : RegNum) (si : BitVec 16) :
    Encodes (0x2C000000 ||| fieldAt bf 23 ||| fieldAt l 21 ||| fieldAt ra 16 ||| fieldAt si 0) (.cmpi bf l ra si) := by
  refine encodes_of_encode rfl fun _ => ?_
  change place 11#6 5 ||| place (compareField bf l) 10 ||| place ra 15 ||| place si 31 =
    place 11#6 5 ||| place bf 8 ||| place l 10 ||| place ra 15 ||| place si 31
  rw [place_compareField, ← BitVec.or_assoc]

/-- Settles O52: both values of L are one compare of the registers as the model extends them. -/
theorem compareRegisters : Obligations.CompareRegisters := by
  refine ⟨encodes_cmp, fun bf ra rb s => ⟨comparesInto_of_compareResult s bf _ _, ?_⟩⟩
  rw [← toInt_sextLowWord, ← toInt_sextLowWord]
  exact comparesInto_of_compareResult s bf _ _

/-- Settles O53: as O52, with SI in the place of RB. -/
theorem compareImmediate : Obligations.CompareImmediate := by
  refine ⟨encodes_cmpi, fun bf ra si s => ?_⟩
  rw [← toInt_signedImm, ← toInt_sextLowWord]
  exact ⟨comparesInto_of_compareResult s bf _ _, comparesInto_of_compareResult s bf _ _⟩

end Sys2Proof.Proofs

/-! The extended mnemonics (30_encoding R110 to R127): what the base instruction of each computes. -/

namespace Sys2Proof.Proofs
open Sys2Proof.Machine Sys2Proof.Laws

theorem writeGpr_readGpr (s : State) (r : RegNum) : s.writeGpr r (s.readGpr r) = s := by
  simp only [State.writeGpr, State.readGpr, Vector.set_getElem_self]

theorem shiftedImm_eq (v : BitVec 16) : shiftedImm v = BitVec.ofInt 64 (v.toInt * 65536) := by
  rw [shiftedImm, BitVec.signExtend, BitVec.toInt_append_zero, Int.mul_comm]
  rfl

/-- A value to be subtracted, negated in the immediate field: its range is that of a negated 16-bit number. -/
theorem toInt_neg_ofInt {k : Int} (hlow : -32767 ≤ k) (hhigh : k ≤ 32768) : (-BitVec.ofInt 16 k).toInt = -k := by
  rw [← BitVec.ofInt_neg, BitVec.toInt_ofInt_eq_self (by decide) (by omega) (by omega)]

/-- A mask that does not wrap, by the weight of the bits. -/
theorem getLsbD_mask {a n j : Nat} (hn : n < 64) (hwrap : a ≤ 63 - n) (hj : j < 64) :
    (mask a (63 - n)).getLsbD j = decide (n ≤ j ∧ j ≤ 63 - a) := by
  have hposition := getLsbD_mask_position_iff a (b := 63 - n) (p := 63 - j) (by omega) (by omega)
  rw [show 63 - (63 - j) = j by omega] at hposition
  rw [Bool.eq_iff_iff, hposition, decide_eq_true_iff]
  omega

/-- The bits of a rotated value that did not come around are those of a shift. -/
theorem getLsbD_rotl64_of_le (v : Word) {n j : Nat} (hnj : n ≤ j) (hj : j < 64) :
    (rotl64 v n).getLsbD j = v.getLsbD (j - n) := by
  rw [getLsbD_rotl64 v n hj]
  congr 1
  omega

/-- A rotated doubleword without the bits that came around is a shifted one. -/
theorem rotl64_and_mask (v : Word) {n : Nat} (hn : n < 64) : rotl64 v n &&& mask 0 (63 - n) = v <<< n := by
  apply BitVec.eq_of_getLsbD_eq
  intro j hj
  rw [BitVec.getLsbD_and, getLsbD_mask hn (Nat.zero_le _) hj, BitVec.getLsbD_shiftLeft]
  by_cases hnj : n ≤ j
  · rw [getLsbD_rotl64_of_le v hnj hj]
    simp [hj, hnj, Nat.le_of_lt_succ hj]
  · simp [hnj, Nat.lt_of_not_le hnj]

/-- The same of a word, whose upper copy the mask clears. -/
theorem rotl32_and_mask (w : BitVec 32) {n : Nat} (hn : n < 32) :
    rotl32 w n &&& mask 32 (63 - n) = 0#32 ++ (w <<< n) := by
  apply BitVec.eq_of_getLsbD_eq
  intro j hj
  rw [BitVec.getLsbD_and, getLsbD_mask (by omega) (by omega) hj, rotl32, BitVec.getLsbD_append]
  by_cases hin : n ≤ j ∧ j ≤ 63 - 32
  · obtain ⟨hnj, hj31⟩ := hin
    rw [getLsbD_rotl64_of_le _ hnj hj, BitVec.getLsbD_append]
    simp [hnj, hj31, show j < 32 by omega, show j - n < 32 by omega]
  · rw [decide_eq_false hin, Bool.and_false]
    split
    · simp [show j < n by omega]
    · exact BitVec.getLsbD_zero.symm

theorem toNat_clearLowTwo (a : Word) : (clearLowTwo a).toNat = a.toNat / 4 * 4 := by
  have hhigh : (a.extractLsb' 2 62).toNat = a.toNat / 4 := by
    rw [BitVec.extractLsb'_toNat, Nat.shiftRight_eq_div_pow]
    omega
  rw [clearLowTwo, BitVec.toNat_append, hhigh, Nat.shiftLeft_eq]
  exact Nat.or_zero _

/-- `subf` subtracts RA (R139). -/
theorem not_add_add_one (a b : Word) : ~~~a + b + 1 = b - a := by bv_omega

section
variable (rx ry rz : RegNum) (v : BitVec 16) (s : State)

theorem exec_addi : exec (.addi rx ry v) s =
    .next { s.writeGpr rx (s.base ry + BitVec.ofInt 64 v.toInt) with pc := s.pc + 4 } := rfl

theorem exec_addis : exec (.addis rx ry v) s =
    .next { s.writeGpr rx (s.base ry + BitVec.ofInt 64 (v.toInt * 65536)) with pc := s.pc + 4 } := by
  rw [← shiftedImm_eq]
  rfl

theorem exec_asmLi : exec (asmLi rx v) s =
    .next { s.writeGpr rx (BitVec.ofInt 64 v.toInt) with pc := s.pc + 4 } := by
  have hbase : s.base 0 + BitVec.ofInt 64 v.toInt = BitVec.ofInt 64 v.toInt := BitVec.zero_add _
  rw [asmLi, exec_addi, hbase]

theorem exec_asmLis : exec (asmLis rx v) s =
    .next { s.writeGpr rx (BitVec.ofInt 64 (v.toInt * 65536)) with pc := s.pc + 4 } := by
  have hbase : s.base 0 + BitVec.ofInt 64 (v.toInt * 65536) = BitVec.ofInt 64 (v.toInt * 65536) := BitVec.zero_add _
  rw [asmLis, exec_addis, hbase]

theorem exec_asmMr : exec (asmMr rx ry) s = .next { s.writeGpr rx (s.readGpr ry) with pc := s.pc + 4 } := by
  change writeResult s rx (s.readGpr ry ||| s.readGpr ry) = _
  rw [BitVec.or_self]
  rfl

theorem exec_asmSub : exec (asmSub rx ry rz) s =
    .next { s.writeGpr rx (s.readGpr ry - s.readGpr rz) with pc := s.pc + 4 } := by
  rw [← not_add_add_one]
  rfl

theorem exec_asmSubi {k : Int} (hlow : -32767 ≤ k) (hhigh : k ≤ 32768) : exec (asmSubi rx ry (BitVec.ofInt 16 k)) s =
    .next { s.writeGpr rx (s.base ry - BitVec.ofInt 64 k) with pc := s.pc + 4 } := by
  rw [asmSubi, exec_addi, toInt_neg_ofInt hlow hhigh, BitVec.ofInt_neg, ← BitVec.sub_eq_add_neg]

theorem exec_asmSubis {k : Int} (hlow : -32767 ≤ k) (hhigh : k ≤ 32768) :
    exec (asmSubis rx ry (BitVec.ofInt 16 k)) s =
      .next { s.writeGpr rx (s.base ry - BitVec.ofInt 64 (k * 65536)) with pc := s.pc + 4 } := by
  rw [asmSubis, exec_addis, toInt_neg_ofInt hlow hhigh, Int.neg_mul, BitVec.ofInt_neg, ← BitVec.sub_eq_add_neg]

theorem exec_asmSlwi (n : BitVec 5) : exec (asmSlwi rx ry n) s =
    .next { s.writeGpr rx (0#32 ++ ((s.readGpr ry).extractLsb' 0 32 <<< n.toNat)) with pc := s.pc + 4 } := by
  have hend : (31 - n).toNat + 32 = 63 - n.toNat := by bv_omega
  change writeResult s rx (rotl32 (lowWord (s.readGpr ry)) n.toNat &&& mask 32 ((31 - n).toNat + 32)) = _
  rw [hend, rotl32_and_mask _ n.isLt]
  rfl

theorem exec_asmSldi (m : BitVec 6) : exec (asmSldi rx ry m) s =
    .next { s.writeGpr rx (s.readGpr ry <<< m.toNat) with pc := s.pc + 4 } := by
  have hend : (63 - m).toNat = 63 - m.toNat := by bv_omega
  change writeResult s rx (rotl64 (s.readGpr ry) m.toNat &&& mask 0 (63 - m).toNat) = _
  rw [hend, rotl64_and_mask _ m.isLt]
  rfl

/-- A register written with what it holds: the no-ops. -/
theorem writeResult_readGpr (r : RegNum) : writeResult s r (s.readGpr r) = .next { s with pc := s.pc + 4 } := by
  rw [writeResult, writeGpr_readGpr]
  rfl

theorem exec_asmNop : exec asmNop s = .next { s with pc := s.pc + 4 } := by
  change writeResult s 0 (s.readGpr 0 ||| 0#64) = _
  rw [BitVec.or_zero, writeResult_readGpr]

theorem exec_asmXnop : exec asmXnop s = .next { s with pc := s.pc + 4 } := by
  change writeResult s 0 (s.readGpr 0 ^^^ 0#64) = _
  rw [BitVec.xor_zero, writeResult_readGpr]

theorem exec_asmBlr : exec asmBlr s = .next { s with pc := clearLowTwo s.lr } := rfl

end

/-- Settles O60, mnemonic by mnemonic. -/
theorem extendedMnemonicsCompute : Obligations.ExtendedMnemonicsCompute := fun rx ry rz v _ n m s =>
  ⟨exec_asmLi rx v s, exec_asmLis rx v s, exec_asmMr rx ry s, exec_asmSub rx ry rz s, exec_addi rx ry v s,
    fun hlow hhigh => ⟨exec_asmSubi rx ry s hlow hhigh, exec_asmSubis rx ry s hlow hhigh⟩, exec_asmSlwi rx ry s n,
    exec_asmSldi rx ry s m, exec_asmNop s, exec_asmXnop s, ⟨_, exec_asmBlr s, toNat_clearLowTwo s.lr⟩, rfl, rfl, rfl⟩

end Sys2Proof.Proofs

/-! Arithmetic and logical instructions (40_arithmetic_logical R130 to R141): the word of each, and the one register it
writes. -/

namespace Sys2Proof.Proofs
open Sys2Proof.Machine Sys2Proof.Laws

/-! ## The words of a format, with the constant fields gathered in one number -/

section
variable {w : InstrWord} {i : Instr} {po : BitVec 6}

theorem encodes_dForm (f1 f2 : BitVec 5) (imm : BitVec 16) (hi : i.needsExtRef = false)
    (h : ∀ poBc, encode poBc i = dForm po f1 f2 imm) (hw : place po 5 = w) :
    Encodes (w ||| fieldAt f1 21 ||| fieldAt f2 16 ||| fieldAt imm 0) i := by
  subst hw
  exact encodes_of_encode hi h

theorem encodes_xForm (f1 f2 f3 : BitVec 5) {xo : BitVec 10} {rc : BitVec 1} (hi : i.needsExtRef = false)
    (h : ∀ poBc, encode poBc i = xForm po f1 f2 f3 xo rc) (hw : place po 5 ||| place xo 30 ||| place rc 31 = w) :
    Encodes (w ||| fieldAt f1 21 ||| fieldAt f2 16 ||| fieldAt f3 11) i := by
  subst hw
  refine encodes_of_encode hi fun poBc => (h poBc).trans ?_
  change place po 5 ||| place f1 10 ||| place f2 15 ||| place f3 20 ||| place xo 30 ||| place rc 31 =
    (place po 5 ||| place xo 30 ||| place rc 31) ||| place f1 10 ||| place f2 15 ||| place f3 20
  generalize place po 5 = p, place f1 10 = r1, place f2 15 = r2, place f3 20 = r3, place xo 30 = x, place rc 31 = c
  ac_rfl

theorem encodes_xoForm (f1 f2 f3 : BitVec 5) {oe rc : BitVec 1} {xo : BitVec 9} (hi : i.needsExtRef = false)
    (h : ∀ poBc, encode poBc i = xoForm po f1 f2 f3 oe xo rc)
    (hw : place po 5 ||| place oe 21 ||| place xo 30 ||| place rc 31 = w) :
    Encodes (w ||| fieldAt f1 21 ||| fieldAt f2 16 ||| fieldAt f3 11) i := by
  subst hw
  refine encodes_of_encode hi fun poBc => (h poBc).trans ?_
  change place po 5 ||| place f1 10 ||| place f2 15 ||| place f3 20 ||| place oe 21 ||| place xo 30 ||| place rc 31 =
    (place po 5 ||| place oe 21 ||| place xo 30 ||| place rc 31) ||| place f1 10 ||| place f2 15 ||| place f3 20
  generalize place po 5 = p, place f1 10 = r1, place f2 15 = r2, place f3 20 = r3, place oe 21 = o, place xo 30 = x,
    place rc 31 = c
  ac_rfl

end

/-- X-form with its third register field reserved. -/
theorem encodes_extsw (ra rs : RegNum) : Encodes (0x7C0007B4 ||| fieldAt rs 21 ||| fieldAt ra 16) (.extsw ra rs) := by
  have hreserved : ∀ x : InstrWord, x ||| fieldAt 0#5 11 = x := fun _ => BitVec.or_zero
  rw [← hreserved (_ ||| _)]
  exact encodes_xForm rs ra 0 rfl (fun _ => rfl) rfl

/-! ## What the instructions compute -/

/-- An instruction that writes one register changes that register and the pc. -/
theorem writeResult_eq (s : State) (r : RegNum) (v : Word) :
    writeResult s r v = .next { s.writeGpr r v with pc := s.pc + 4 } := rfl

/-- The 32-bit shifted immediate, sign-extended, is the sign-extended immediate shifted (R132). -/
theorem shiftedImm_eq_shiftLeft (si : BitVec 16) : shiftedImm si = si.signExtend 64 <<< 16 := by
  calc shiftedImm si
      = BitVec.ofInt 64 si.toInt * BitVec.ofInt 64 65536 := by rw [shiftedImm_eq, BitVec.ofInt_mul]
    _ = si.signExtend 64 <<< 16 := (BitVec.shiftLeft_eq_mul_twoPow _ 16).symm

theorem unsignedImm_eq_append (ui : BitVec 16) : unsignedImm ui = 0#48 ++ ui := by
  rw [unsignedImm, BitVec.setWidth_eq_append (by decide)]
  rfl

/-! ## The obligations -/

/-- Settles O29: `subf` adds the complement of RA and 1, which is to subtract RA. -/
theorem addAndSubtract : Obligations.AddAndSubtract := by
  refine ⟨fun rt ra rb => ⟨encodes_xoForm rt ra rb rfl (fun _ => rfl) rfl,
    encodes_xoForm rt ra rb rfl (fun _ => rfl) rfl⟩, fun rt ra rb s => ⟨writeResult_eq s rt _, ?_⟩⟩
  rw [← not_add_add_one]
  exact writeResult_eq s rt _

/-- Settles O30: the base of R131 is the model's `State.base`. -/
theorem addImmediate : Obligations.AddImmediate :=
  ⟨fun rt ra si => encodes_dForm rt ra si rfl (fun _ => rfl) rfl, fun rt _ _ s => writeResult_eq s rt _⟩

/-- Settles O31: the shift may be taken before or after the sign extension. -/
theorem addImmediateShifted : Obligations.AddImmediateShifted := by
  refine ⟨fun rt ra si => encodes_dForm rt ra si rfl (fun _ => rfl) rfl, fun rt ra si s => ?_⟩
  rw [← shiftedImm_eq_shiftLeft]
  exact writeResult_eq s rt _

/-- Settles O32, instruction by instruction. -/
theorem logicalOfTwoRegisters : Obligations.LogicalOfTwoRegisters :=
  ⟨fun ra rs rb => ⟨encodes_xForm rs ra rb rfl (fun _ => rfl) rfl, encodes_xForm rs ra rb rfl (fun _ => rfl) rfl,
    encodes_xForm rs ra rb rfl (fun _ => rfl) rfl, encodes_xForm rs ra rb rfl (fun _ => rfl) rfl⟩,
  fun ra _ _ s => ⟨writeResult_eq s ra _, writeResult_eq s ra _, writeResult_eq s ra _, writeResult_eq s ra _⟩⟩

/-- Settles O33: zero extension puts 48 zeros on the left. -/
theorem logicalOfAnImmediate : Obligations.LogicalOfAnImmediate := by
  refine ⟨fun ra rs ui => ⟨encodes_dForm rs ra ui rfl (fun _ => rfl) rfl,
    encodes_dForm rs ra ui rfl (fun _ => rfl) rfl⟩, fun ra rs ui s => ?_⟩
  rw [← unsignedImm_eq_append]
  exact ⟨writeResult_eq s ra _, writeResult_eq s ra _⟩

/-- Settles O34: as O33; the register and the pc are all that is written, so CR is as it was (D20). -/
theorem andImmediate : Obligations.AndImmediate := by
  refine ⟨fun ra rs ui => encodes_dForm rs ra ui rfl (fun _ => rfl) rfl, fun ra rs ui s => ?_⟩
  rw [← unsignedImm_eq_append]
  exact writeResult_eq s ra _

/-- Settles O35: the reserved bits by O6, Rc by the rows of primary opcode 31; the library extends a sign as the
number's value at the wider width. -/
theorem extendSignWord : Obligations.ExtendSignWord := by
  obtain ⟨illegal_of_reserved, -⟩ := reservedBitsMustBeZero
  refine ⟨encodes_extsw, fun w hpo hxo hset => ?_, fun ra _ s => writeResult_eq s ra _⟩
  rcases hset with hreserved | hrc
  · exact illegal_of_reserved w hpo hxo hreserved
  · exact illegal_of_record hpo hrc

end Sys2Proof.Proofs

/-! Data transfer (41_data_transfer R150 to R162): the word of each load and store, the bytes it moves, and the fault
where the access is not permitted. -/

namespace Sys2Proof.Proofs
open Sys2Proof.Machine Sys2Proof.Laws

/-! ## The words of the DS-form -/

/-- A field with two zeros on its right stands at the end of a word where the field itself stands two bits higher. -/
theorem fieldAt_append_zeros (ds : BitVec 14) : fieldAt (ds ++ 0#2) 0 = place ds 29 := by
  apply BitVec.eq_of_getLsbD_eq
  intro j hj
  rw [getLsbD_place ds 29 j hj, fieldAt, BitVec.shiftLeft_zero, BitVec.getLsbD_setWidth, BitVec.getLsbD_append]
  by_cases hlow : j < 2
  · simp [hlow]
  · simp [hj, hlow, Nat.le_of_not_lt hlow]

theorem encodes_dsForm {w : InstrWord} {i : Instr} {po : BitVec 6} (f1 f2 : BitVec 5) (ds : BitVec 14)
    (hi : i.needsExtRef = false) (h : ∀ poBc, encode poBc i = dsForm po f1 f2 ds 0) (hw : place po 5 = w) :
    Encodes (w ||| fieldAt f1 21 ||| fieldAt f2 16 ||| fieldAt (ds ++ 0#2) 0) i := by
  subst hw
  rw [fieldAt_append_zeros]
  exact encodes_of_encode hi fun poBc => (h poBc).trans BitVec.or_zero

/-- The two DS-form opcodes have no instruction but the one with 0 in bits 30:31 (R108). -/
theorem illegal_of_dsForm {w : InstrWord} (hpo : field w 0 5 = 58 ∨ field w 0 5 = 62) (hxo : field w 30 31 ≠ 0) :
    Illegal w := by
  obtain ⟨-, -, -, -, -, illegal, -⟩ := unassignedWordsAreIllegal
  exact illegal w hpo hxo

/-! ## Loads: the value byte by byte -/

/-- The low byte of an extended value is the byte at its address; the bytes above are the rest, extended. -/
theorem setWidth_load_succ (m : Memory) (a : Word) (n k : Nat) :
    (m.load a (n + 1)).setWidth (k + 8) = (m.load (a + 1) n).setWidth k ++ m.read a.toNat := by
  change (m.load (a + 1) n ++ m.read a.toNat : BitVec (8 * n + 8)).setWidth (k + 8) = _
  apply BitVec.eq_of_getLsbD_eq
  intro j hj
  simp only [BitVec.getLsbD_setWidth, BitVec.getLsbD_append, hj, decide_true, Bool.true_and]
  split
  · rfl
  · rw [decide_eq_true (by omega), Bool.true_and]

theorem setWidth_load_zero (m : Memory) (a : Word) (k : Nat) : (m.load a 0).setWidth k = 0#k :=
  BitVec.setWidth_zero k 0

theorem setWidth_load_one (m : Memory) (a : Word) (k : Nat) :
    (m.load a 1).setWidth (k + 8) = 0#k ++ m.read a.toNat := by
  rw [setWidth_load_succ, setWidth_load_zero]

theorem setWidth_load_two (m : Memory) (a : Word) (k : Nat) :
    (m.load a 2).setWidth (k + 8 + 8) = 0#k ++ m.read (a + 1).toNat ++ m.read a.toNat := by
  rw [setWidth_load_succ, setWidth_load_one]

theorem setWidth_load_four (m : Memory) (a : Word) (k : Nat) :
    (m.load a 4).setWidth (k + 8 + 8 + 8 + 8) =
      0#k ++ m.read (a + 3).toNat ++ m.read (a + 2).toNat ++ m.read (a + 1).toNat ++ m.read a.toNat := by
  rw [setWidth_load_succ, setWidth_load_succ, setWidth_load_two]
  simp only [BitVec.ofNat_eq_ofNat, BitVec.add_assoc, BitVec.reduceAdd]

theorem load_one (m : Memory) (a : Word) : m.load a 1 = m.read a.toNat := BitVec.zero_width_append _ _

theorem load_two (m : Memory) (a : Word) : m.load a 2 = m.read (a + 1).toNat ++ m.read a.toNat :=
  congrArg (· ++ m.read a.toNat) (load_one m (a + 1))

theorem load_eight (m : Memory) (a : Word) :
    m.load a 8 = m.read (a + 7).toNat ++ m.read (a + 6).toNat ++ m.read (a + 5).toNat ++ m.read (a + 4).toNat ++
      m.read (a + 3).toNat ++ m.read (a + 2).toNat ++ m.read (a + 1).toNat ++ m.read a.toNat := by
  change m.load (a + 1 + 1 + 1 + 1) 4 ++ m.read (a + 1 + 1 + 1).toNat ++ m.read (a + 1 + 1).toNat ++
    m.read (a + 1).toNat ++ m.read a.toNat = _
  rw [load_four]
  simp only [BitVec.ofNat_eq_ofNat, BitVec.add_assoc, BitVec.reduceAdd]

/-- A load whose extended value is `v` writes it, or stops. -/
theorem loadsAndGoesOn_of_loadResult {i : Instr} {s : State} {rt : RegNum} {ea : Word} {n : Nat}
    {extend : BitVec (8 * n) → Word} {v : Word} (exec_eq : exec i s = loadResult s rt ea n extend)
    (value : extend (s.mem.load ea n) = v) : LoadsAndGoesOn i s rt ea n v := by
  subst value
  rw [LoadsAndGoesOn, exec_eq, loadResult_eq]
  exact ⟨fun permitted => if_pos permitted, fun refused => if_neg (Bool.eq_false_iff.mp refused)⟩

/-! ## Stores -/

/-- A store in canonical memory stores its bytes and goes on, or stops. -/
theorem storesAndGoesOn_of_storeResult {i : Instr} {s : State} {ea : Word} {n : Nat} {v : BitVec (8 * n)}
    (hwf : s.mem.wf = true) (hn : n ≤ 2 ^ 64) (exec_eq : exec i s = storeResult s ea n v) :
    StoresAndGoesOn i s ea n v := by
  rw [StoresAndGoesOn, exec_eq, storeResult_eq]
  exact ⟨fun permitted => ⟨_, if_pos permitted, rfl, storesBytes_store ea v hwf hn⟩,
    fun refused => if_neg (Bool.eq_false_iff.mp refused)⟩

/-- With a base register `stwu` is the store with update at (RA) + D (R157). -/
theorem exec_stwu {ra : RegNum} (hra : ra ≠ 0) (rs : RegNum) (d : BitVec 16) (s : State) :
    exec (.stwu rs d ra) s = storeUpdateResult s ra (s.readGpr ra + signedImm d) 4 (lowWord (s.readGpr rs)) :=
  if_neg hra

/-! ## The obligations -/

/-- Settles O36: the illegal words are a case of R108, the value is read as its eight bytes. -/
theorem loadDoubleword : Obligations.LoadDoubleword := by
  refine ⟨fun rt ra ds => encodes_dsForm rt ra ds rfl (fun _ => rfl) rfl,
    fun w hpo hxo => illegal_of_dsForm (.inl hpo) hxo, ?_⟩
  rintro rt ra ds s ea rfl
  exact loadsAndGoesOn_of_loadResult rfl (load_eight s.mem _)

/-- Settles O37: the three are one load with zeros above, of four, two and one bytes. -/
theorem zeroExtendingLoads : Obligations.ZeroExtendingLoads := by
  refine ⟨fun rt ra d => ⟨encodes_dForm rt ra d rfl (fun _ => rfl) rfl,
    encodes_dForm rt ra d rfl (fun _ => rfl) rfl, encodes_dForm rt ra d rfl (fun _ => rfl) rfl⟩, ?_⟩
  rintro rt ra d s ea rfl
  exact ⟨loadsAndGoesOn_of_loadResult rfl (setWidth_load_four s.mem _ 32),
    loadsAndGoesOn_of_loadResult rfl (setWidth_load_two s.mem _ 48),
    loadsAndGoesOn_of_loadResult rfl (setWidth_load_one s.mem _ 56)⟩

/-- Settles O38: the library extends a sign as the number's value at the wider width. -/
theorem loadHalfwordAlgebraic : Obligations.LoadHalfwordAlgebraic := by
  refine ⟨fun rt ra d => encodes_dForm rt ra d rfl (fun _ => rfl) rfl, ?_⟩
  rintro rt ra d s ea rfl
  exact loadsAndGoesOn_of_loadResult rfl (congrArg (BitVec.signExtend 64) (load_two s.mem _))

/-- Settles O39: the four are one store, of eight, four, two and one bytes. -/
theorem stores : Obligations.Stores := by
  refine ⟨fun rs ra d ds => ⟨encodes_dsForm rs ra ds rfl (fun _ => rfl) rfl,
    encodes_dForm rs ra d rfl (fun _ => rfl) rfl, encodes_dForm rs ra d rfl (fun _ => rfl) rfl,
    encodes_dForm rs ra d rfl (fun _ => rfl) rfl⟩, fun w hpo hxo => illegal_of_dsForm (.inr hpo) hxo,
    fun _ _ _ _ => ⟨rfl, rfl⟩, fun rs ra d ds s hwf => ?_⟩
  exact ⟨storesAndGoesOn_of_storeResult hwf (by decide) rfl, storesAndGoesOn_of_storeResult hwf (by decide) rfl,
    storesAndGoesOn_of_storeResult hwf (by decide) rfl, storesAndGoesOn_of_storeResult hwf (by decide) rfl⟩

/-- Settles O40, by the two cases of the store with update; with RA = 0 the instruction stops before either. -/
theorem storeWordWithUpdate : Obligations.StoreWordWithUpdate := by
  refine ⟨fun rs ra d => encodes_dForm rs ra d rfl (fun _ => rfl) rfl, fun _ _ _ => rfl, ?_⟩
  rintro rs ra d s ea hwf hra rfl
  rw [exec_stwu hra, storeUpdateResult_eq]
  exact ⟨rfl, fun permitted => ⟨_, if_pos permitted, rfl, storesBytes_store _ _ hwf (by decide)⟩,
    fun refused => if_neg (Bool.eq_false_iff.mp refused)⟩

end Sys2Proof.Proofs

/-! Rotates and shifts (42_shift_rotate R169 to R174): the word of each, and the rotation under a mask as a shift. -/

namespace Sys2Proof.Proofs
open Sys2Proof.Machine Sys2Proof.Laws

/-! ## The words of the M-form and the XS-form -/

theorem encodes_rlwinm (ra rs : RegNum) (sh mb me : BitVec 5) :
    Encodes (0x54000000 ||| fieldAt rs 21 ||| fieldAt ra 16 ||| fieldAt sh 11 ||| fieldAt mb 6 ||| fieldAt me 1)
      (.rlwinm ra rs sh mb me) :=
  encodes_of_encode rfl fun _ => BitVec.or_zero

/-- The high bit of SH stands in instruction bit 30, after the extended opcode (R92). -/
theorem encodes_sradi (ra rs : RegNum) (sh : BitVec 6) :
    Encodes (0x7C000674 ||| fieldAt rs 21 ||| fieldAt ra 16 ||| fieldAt (sh.extractLsb' 0 5) 11 |||
      fieldAt (sh.extractLsb' 5 1) 1) (.sradi ra rs sh) := by
  refine encodes_of_encode rfl fun _ => ?_
  change place 31#6 5 ||| place rs 10 ||| place ra 15 ||| place (sh.extractLsb' 0 5) 20 ||| place 413#9 29 |||
      place (sh.extractLsb' 5 1) 30 ||| place 0#1 31 =
    (place 31#6 5 ||| place 413#9 29 ||| place 0#1 31) ||| place rs 10 ||| place ra 15 |||
      place (sh.extractLsb' 0 5) 20 ||| place (sh.extractLsb' 5 1) 30
  generalize place 31#6 5 = po, place rs 10 = f1, place ra 15 = f2, place (sh.extractLsb' 0 5) 20 = low,
    place 413#9 29 = xo, place (sh.extractLsb' 5 1) 30 = high, place 0#1 31 = rc
  ac_rfl

/-! ## The rotated low-order word under its mask (R170) -/

/-- Both halves of a doubled and rotated word are the word rotated (R17). -/
theorem getLsbD_rotl32 (w : BitVec 32) {n j : Nat} (hn : n < 32) (hj : j < 64) :
    (rotl32 w n).getLsbD j = w.getLsbD ((j + 32 - n) % 32) := by
  rw [rotl32, getLsbD_rotl64 _ _ hj, BitVec.getLsbD_append]
  split
  · congr 1
    omega
  · congr 1
    omega

/-- R18's description of the mask, by the weight of the bits. -/
theorem getLsbD_mask_iff (a : Nat) {b j : Nat} (hb : b < 64) (hj : j < 64) :
    (mask a b).getLsbD j = true ↔
      (a ≤ b ∧ a ≤ 63 - j ∧ 63 - j ≤ b) ∨ (b < a ∧ (a ≤ 63 - j ∨ 63 - j ≤ b)) := by
  have hposition := getLsbD_mask_position_iff a (p := 63 - j) hb (by omega)
  rwa [Nat.sub_sub_self (Nat.le_of_lt_succ hj)] at hposition

/-- Positions `mb` to `me` of the low-order word, by the weight of the bits; `mb > me` wraps. -/
theorem getLsbD_mask_lowWord {mb me q : Nat} (hmb : mb < 32) (hme : me < 32) (hq : q < 32) :
    (mask (mb + 32) (me + 32)).getLsbD q =
      if mb ≤ me then decide (31 - me ≤ q) && decide (q ≤ 31 - mb)
      else decide (q ≤ 31 - mb) || decide (31 - me ≤ q) := by
  rw [Bool.eq_iff_iff, getLsbD_mask_iff _ (by omega) (by omega)]
  split
  · rw [Bool.and_eq_true, decide_eq_true_iff, decide_eq_true_iff]
    omega
  · rw [Bool.or_eq_true, decide_eq_true_iff, decide_eq_true_iff]
    omega

/-- A mask of the low-order word reaches the high-order word only where it wraps, and then covers it. -/
theorem getLsbD_mask_highWord (mb : Nat) {me q : Nat} (hme : me < 32) (hq : q < 32) :
    (mask (mb + 32) (me + 32)).getLsbD (q + 32) = decide (me < mb) := by
  rw [Bool.eq_iff_iff, getLsbD_mask_iff _ (by omega) (by omega), decide_eq_true_iff]
  omega

/-! ## Shift amounts (R171 to R173) -/

/-- The low-order seven bits of RB: bit 6 says that they are 64 or more, and below that the six bits are all of them. -/
theorem shiftCount_cases {rb : Word} {n : Nat} (hn : n = (rb.extractLsb' 0 7).toNat) :
    (n < 64 ∧ rb.getLsbD 6 = false ∧ shiftCount rb = n) ∨ (¬n < 64 ∧ rb.getLsbD 6 = true) := by
  have hseven : n = rb.toNat % 128 := by rw [hn, BitVec.extractLsb'_toNat, Nat.shiftRight_zero]
  have hsix : shiftCount rb = rb.toNat % 64 := by rw [shiftCount, BitVec.extractLsb'_toNat, Nat.shiftRight_zero]
  rw [hsix, BitVec.getLsbD, Nat.testBit_eq_decide_div_mod_eq, decide_eq_false_iff_not, decide_eq_true_iff]
  omega

/-! ## Right shifts as rotations under a mask (R172 to R174) -/

/-- A rotation to the right by `n` is one to the left by 64 - `n`. -/
theorem getLsbD_rotl64_right (v : Word) {n j : Nat} (hnj : n + j < 64) :
    (rotl64 v ((64 - n) % 64)).getLsbD j = v.getLsbD (n + j) := by
  rw [getLsbD_rotl64 v _ (by omega)]
  congr 1
  omega

/-- The places whose bit did not come around in a rotation to the right by `n`. -/
theorem getLsbD_mask_right {n j : Nat} (hn : n < 64) (hj : j < 64) : (mask n 63).getLsbD j = decide (n + j < 64) := by
  rw [Bool.eq_iff_iff, getLsbD_mask_iff n (by decide) hj, decide_eq_true_iff]
  omega

theorem rotl64_right_and_mask (v : Word) {n : Nat} (hn : n < 64) :
    rotl64 v ((64 - n) % 64) &&& mask n 63 = v >>> n := by
  apply BitVec.eq_of_getLsbD_eq
  intro j hj
  rw [BitVec.getLsbD_and, getLsbD_mask_right hn hj, BitVec.getLsbD_ushiftRight]
  by_cases hin : n + j < 64
  · rw [getLsbD_rotl64_right v hin, decide_eq_true hin, Bool.and_true]
  · rw [decide_eq_false hin, Bool.and_false, BitVec.getLsbD_of_ge v _ (Nat.le_of_not_lt hin)]

theorem getLsbD_repBit (b : Bool) {j : Nat} (hj : j < 64) : (repBit b).getLsbD j = b := by
  cases b with
  | false => exact BitVec.getLsbD_zero
  | true => exact (BitVec.getLsbD_allOnes).trans (decide_eq_true hj)

/-- The places the mask clears take the sign bit, as in the library's algebraic shift. -/
theorem algebraicShift_mask (v : Word) {n : Nat} (hn : n < 64) : algebraicShift v n (mask n 63) = v.sshiftRight n := by
  rw [algebraicShift, rotl64_right_and_mask v hn]
  apply BitVec.eq_of_getLsbD_eq
  intro j hj
  rw [BitVec.getLsbD_or, BitVec.getLsbD_and, BitVec.getLsbD_not, getLsbD_mask_right hn hj, getLsbD_repBit _ hj,
    BitVec.getLsbD_ushiftRight, BitVec.getLsbD_sshiftRight, BitVec.msb_eq_getLsbD_last]
  by_cases hin : n + j < 64
  · simp [hin, hj]
  · simp [hin, hj, BitVec.getLsbD_of_ge v _ (Nat.le_of_not_lt hin)]

/-- R174's own second reading: the signed value divided by 2^n, rounded down. -/
theorem algebraicShift_eq_floor (v : Word) {n : Nat} (hn : n < 64) :
    algebraicShift v n (mask n 63) = BitVec.ofInt 64 (v.toInt / 2 ^ n) := by
  rw [algebraicShift_mask v hn, BitVec.sshiftRight, Int.shiftRight_eq_div_pow, Nat.cast_pow, Nat.cast_ofNat]

/-- Under an empty mask nothing but the sign is left (R173). -/
theorem algebraicShift_zero_mask (v : Word) (n : Nat) :
    algebraicShift v n 0 = if v.toInt < 0 then BitVec.allOnes 64 else 0 := by
  have hsign : v.getLsbD 63 = decide (v.toInt < 0) := (BitVec.msb_eq_getLsbD_last v).symm.trans BitVec.msb_eq_toInt
  have hrep : algebraicShift v n 0 = repBit (v.getLsbD 63) := by
    rw [algebraicShift, BitVec.ofNat_eq_ofNat, BitVec.and_zero, BitVec.not_zero, BitVec.and_allOnes, BitVec.zero_or]
  rw [hrep, hsign, repBit]
  simp only [decide_eq_true_eq]

/-! ## The results of the shifts by RB (R171 to R173) -/

section
variable (v : Word) {rb : Word} {n : Nat}

theorem sld_value (hn : n = (rb.extractLsb' 0 7).toNat) :
    (rotl64 v (shiftCount rb) &&& if rb.getLsbD 6 then 0 else mask 0 (63 - shiftCount rb)) =
      if n < 64 then v <<< n else 0 := by
  rcases shiftCount_cases hn with ⟨hlow, hbit, hcount⟩ | ⟨hhigh, hbit⟩
  · rw [hbit, hcount, if_neg Bool.false_ne_true, if_pos hlow, rotl64_and_mask v hlow]
  · rw [hbit, if_pos rfl, if_neg hhigh]
    exact BitVec.and_zero

theorem srd_value (hn : n = (rb.extractLsb' 0 7).toNat) :
    (rotl64 v ((64 - shiftCount rb) % 64) &&& if rb.getLsbD 6 then 0 else mask (shiftCount rb) 63) =
      if n < 64 then v >>> n else 0 := by
  rcases shiftCount_cases hn with ⟨hlow, hbit, hcount⟩ | ⟨hhigh, hbit⟩
  · rw [hbit, hcount, if_neg Bool.false_ne_true, if_pos hlow, rotl64_right_and_mask v hlow]
  · rw [hbit, if_pos rfl, if_neg hhigh]
    exact BitVec.and_zero

theorem srad_value (hn : n = (rb.extractLsb' 0 7).toNat) :
    algebraicShift v (shiftCount rb) (if rb.getLsbD 6 then 0 else mask (shiftCount rb) 63) =
      if n < 64 then BitVec.ofInt 64 (v.toInt / 2 ^ n) else if v.toInt < 0 then BitVec.allOnes 64 else 0 := by
  rcases shiftCount_cases hn with ⟨hlow, hbit, hcount⟩ | ⟨hhigh, hbit⟩
  · rw [hbit, hcount, if_neg Bool.false_ne_true, if_pos hlow, algebraicShift_eq_floor v hlow]
  · rw [hbit, if_pos rfl, if_neg hhigh, algebraicShift_zero_mask]

end

/-! ## The obligations -/

/-- Settles O41: a bit of the result is a bit of the rotated word and one of the mask, in either half. -/
theorem rotateLeftWordAndMask : Obligations.RotateLeftWordAndMask := by
  refine ⟨encodes_rlwinm, fun ra rs sh mb me s => ⟨_, writeResult_eq s ra _, fun q hq => ⟨?_, ?_⟩⟩⟩
  · rw [BitVec.getLsbD_and, getLsbD_rotl32 _ sh.isLt (by omega), getLsbD_mask_lowWord mb.isLt me.isLt hq]
    rfl
  · have hsource : (q + 32 + 32 - sh.toNat) % 32 = (q + 32 - sh.toNat) % 32 := by omega
    rw [BitVec.getLsbD_and, getLsbD_rotl32 _ sh.isLt (by omega), getLsbD_mask_highWord _ me.isLt hq, hsource]
    rfl

/-- Settles O42: the mask drops the bits that came around, and is empty from 64 on. -/
theorem shiftLeftDoubleword : Obligations.ShiftLeftDoubleword := by
  refine ⟨fun ra rs rb => encodes_xForm rs ra rb rfl (fun _ => rfl) rfl, fun ra rs rb s n hn => ?_⟩
  rw [← sld_value _ hn]
  exact writeResult_eq s ra _

/-- Settles O43: as O42, to the right. -/
theorem shiftRightDoubleword : Obligations.ShiftRightDoubleword := by
  refine ⟨fun ra rs rb => encodes_xForm rs ra rb rfl (fun _ => rfl) rfl, fun ra rs rb s n hn => ?_⟩
  rw [← srd_value _ hn]
  exact writeResult_eq s ra _

/-- Settles O44: the sign fills what the mask drops, which is all of it from 64 on. -/
theorem shiftRightAlgebraic : Obligations.ShiftRightAlgebraic := by
  refine ⟨fun ra rs rb => encodes_xForm rs ra rb rfl (fun _ => rfl) rfl, fun ra rs rb s n hn => ?_⟩
  rw [← srad_value _ hn]
  exact writeResult_eq s ra _

/-- Settles O45: SH has six bits, so that its shift is always one below 64. -/
theorem shiftRightAlgebraicImmediate : Obligations.ShiftRightAlgebraicImmediate := by
  refine ⟨encodes_sradi, fun ra rs sh s => ?_⟩
  rw [← algebraicShift_eq_floor _ sh.isLt]
  exact writeResult_eq s ra _

end Sys2Proof.Proofs

/-! Branches (43_branch R176 to R191): where the pc goes and what LR takes, the displacements of the two formats, and
their words. -/

namespace Sys2Proof.Proofs
open Sys2Proof.Machine Sys2Proof.Laws

/-! ## Conditional branches (R187) -/

section
variable {s : State} {bo bi : BitVec 5} {target : Word}

/-- A BO with a meaning leaves the pc to the tested bit. -/
theorem conditionalResult_of_boTest {test : BranchTest} (h : boTest bo = some test) (form : InstrWord) :
    conditionalResult s form bo bi target =
      .next { s with pc := if testHolds test (crBit s.cr bi) then target else s.pc + 4 } := by
  simp only [conditionalResult, h]
  split
  · rfl
  · rfl

theorem next_of_conditionalResult {form : InstrWord} {t : State} (h : conditionalResult s form bo bi target = .next t) :
    t = s.jump target ∨ t = s.advance := by
  rcases conditionalResult_cases s form bo bi target with ⟨_, stop⟩ | ⟨_, _, ⟨_, taken⟩ | ⟨_, notTaken⟩⟩
  · cases stop.symm.trans h
  · exact .inl (next_inj (taken.symm.trans h)).symm
  · exact .inr (next_inj (notTaken.symm.trans h)).symm

theorem boTest_always (h4 : bo.getLsbD 4 = true) (h2 : bo.getLsbD 2 = true) : boTest bo = some .always := by
  simp only [boTest, h4, h2, Bool.and_self, if_pos]

/-- The shared operation does what R187 says for each BO. -/
theorem branchesOn_of_conditionalResult {i : Instr}
    (exec_eq : exec i s = conditionalResult s (encode s.params.poBc i) bo bi target) : BranchesOn i bo bi s target := by
  rw [BranchesOn, exec_eq]
  refine ⟨fun h4 h2 => ?_, fun h12 => ?_, fun h4 => ?_, fun halways h12 h4 => ?_⟩
  · exact conditionalResult_of_boTest (boTest_always h4 h2) _
  · subst h12
    exact conditionalResult_of_boTest (test := .ifSet) rfl _
  · subst h4
    rw [conditionalResult_of_boTest (test := .ifClear) rfl, testHolds, crBit]
    cases s.cr.getLsbD (31 - bi.toNat) <;> rfl
  · exact conditionalResult_invalid (boTest_eq_none halways h12 h4) s _ bi target

/-- A false condition (D5): the pc goes on. -/
theorem exec_of_condition_false {i : Instr} (h : BranchesOn i bo bi s target)
    (hfalse : (bo = 12 ∧ s.cr.getLsbD (31 - bi.toNat) = false) ∨ (bo = 4 ∧ s.cr.getLsbD (31 - bi.toNat) = true)) :
    exec i s = .next { s with pc := s.pc + 4 } := by
  obtain ⟨-, ifSet, ifClear, -⟩ := h
  rcases hfalse with ⟨h12, hbit⟩ | ⟨h4, hbit⟩
  · rw [ifSet h12, hbit, if_neg Bool.false_ne_true]
  · rw [ifClear h4, hbit, if_pos rfl]

end

section
variable (bo bi : BitVec 5) (bd : BitVec 14) (bh : BitVec 2) (s : State)

theorem branchesOn_bc : BranchesOn (.bc bo bi bd) bo bi s (s.pc + bdDisp bd) := branchesOn_of_conditionalResult rfl

theorem branchesOn_bca : BranchesOn (.bca bo bi bd) bo bi s (bdDisp bd) := branchesOn_of_conditionalResult rfl

theorem branchesOn_bclr : BranchesOn (.bclr bo bi bh) bo bi s (clearLowTwo s.lr) := branchesOn_of_conditionalResult rfl

end

/-! ## Unconditional branches (R180 to R183) -/

section
variable (li : BitVec 24) (s : State)

theorem exec_b : exec (.b li) s = .next { s with pc := s.pc + liDisp li } := rfl

theorem exec_ba : exec (.ba li) s = .next { s with pc := liDisp li } := rfl

theorem exec_bl : exec (.bl li) s = .next { s with lr := s.pc + 4, pc := s.pc + liDisp li } := rfl

theorem exec_bla : exec (.bla li) s = .next { s with lr := s.pc + 4, pc := liDisp li } := rfl

end

/-! ## Instructions in sequence (R176, R179)

What is no branch, no `sc` and no `mtspr` goes on to the next instruction and leaves LR alone. -/

/-- The instructions that write neither the pc but by going on, nor LR. -/
def staysInSequence (i : Instr) : Bool :=
  match instrKind i with
  | .register | .load | .store | .storeUpdate | .compare => true
  | .jump | .link | .conditional | .systemCall | .toLink => false

theorem next_of_staysInSequence {i : Instr} {s t : State} (hi : staysInSequence i = true) (h : exec i s = .next t) :
    t.pc = s.pc + 4 ∧ t.lr = s.lr := by
  cases acts i with
  | register _ exec_eq | compare _ exec_eq =>
    obtain rfl := next_inj ((exec_eq s).symm.trans h)
    exact ⟨rfl, rfl⟩
  | load _ exec_eq =>
    rw [exec_eq, loadResult_eq] at h
    split at h <;> cases h
    exact ⟨rfl, rfl⟩
  | store _ exec_eq =>
    rw [exec_eq, storeResult_eq] at h
    split at h <;> cases h
    exact ⟨rfl, rfl⟩
  | storeUpdate rs d ra =>
    change execStwu rs d ra s = .next t at h
    rw [execStwu, storeUpdateResult_eq] at h
    split at h
    · cases h
    · split at h <;> cases h
      exact ⟨rfl, rfl⟩
  | jump kind | link kind | conditional kind => simp [staysInSequence, kind] at hi
  | systemCall | toLink => cases hi

theorem target_of_jump_or_link {i : Instr} {s t : State} (h : exec i s = .next t)
    (kind : instrKind i = .jump ∨ instrKind i = .link) :
    ∃ li, (t.pc = s.pc + liDisp li ∧ (i = .b li ∨ i = .bl li)) ∨ (t.pc = liDisp li ∧ (i = .ba li ∨ i = .bla li)) := by
  cases i with
  | b li =>
    obtain rfl := next_inj ((exec_b li s).symm.trans h)
    exact ⟨li, .inl ⟨rfl, .inl rfl⟩⟩
  | bl li =>
    obtain rfl := next_inj ((exec_bl li s).symm.trans h)
    exact ⟨li, .inl ⟨rfl, .inr rfl⟩⟩
  | ba li =>
    obtain rfl := next_inj ((exec_ba li s).symm.trans h)
    exact ⟨li, .inr ⟨rfl, .inl rfl⟩⟩
  | bla li =>
    obtain rfl := next_inj ((exec_bla li s).symm.trans h)
    exact ⟨li, .inr ⟨rfl, .inr rfl⟩⟩
  | _ => rcases kind with kind | kind <;> cases kind

/-- R176: who leaves the sequence, and where to. -/
theorem target_of_pc_left_sequence {i : Instr} {s t : State} (h : exec i s = .next t) (hpc : t.pc ≠ s.pc + 4) :
    ((∃ lev, i = .sc lev) ∧ t.pc = 0x0000000000000C00) ∨
    (∃ li, (i = .b li ∨ i = .bl li) ∧ t.pc = s.pc + liDisp li) ∨
    (∃ li, (i = .ba li ∨ i = .bla li) ∧ t.pc = liDisp li) ∨
    (∃ bo bi bd, i = .bc bo bi bd ∧ t.pc = s.pc + bdDisp bd) ∨
    (∃ bo bi bd, i = .bca bo bi bd ∧ t.pc = bdDisp bd) ∨
    (∃ bo bi bh, i = .bclr bo bi bh ∧ t.pc = clearLowTwo s.lr) := by
  cases i with
  | sc lev =>
    obtain rfl := next_inj (s := takeSystemCall s) h
    exact .inl ⟨⟨lev, rfl⟩, rfl⟩
  | b | bl | ba | bla =>
    obtain ⟨li, ⟨relative, hi⟩ | ⟨absolute, hi⟩⟩ := target_of_jump_or_link h (by simp [instrKind])
    · exact .inr (.inl ⟨li, hi, relative⟩)
    · exact .inr (.inr (.inl ⟨li, hi, absolute⟩))
  | bc bo bi bd =>
    rcases next_of_conditionalResult h with rfl | rfl
    · exact .inr (.inr (.inr (.inl ⟨bo, bi, bd, rfl, rfl⟩)))
    · exact absurd rfl hpc
  | bca bo bi bd =>
    rcases next_of_conditionalResult h with rfl | rfl
    · exact .inr (.inr (.inr (.inr (.inl ⟨bo, bi, bd, rfl, rfl⟩))))
    · exact absurd rfl hpc
  | bclr bo bi bh =>
    rcases next_of_conditionalResult h with rfl | rfl
    · exact .inr (.inr (.inr (.inr (.inr ⟨bo, bi, bh, rfl, rfl⟩))))
    · exact absurd rfl hpc
  | mtspr rs =>
    obtain rfl := next_inj (s := State.advance { s with lr := s.readGpr rs }) h
    exact absurd rfl hpc
  | _ => exact absurd (next_of_staysInSequence rfl h).1 hpc

/-- Settles O20: what stays in sequence goes on by 4, and each of the others goes where its meaning says. -/
theorem onlyTakenBranchesAndScLeaveTheSequence : Obligations.OnlyTakenBranchesAndScLeaveTheSequence := by
  refine ⟨fun _ _ _ => target_of_pc_left_sequence, fun _ _ _ => target_of_jump_or_link,
    fun i bo bi bd bh s hi hfalse => ?_⟩
  rcases hi with rfl | rfl | rfl
  · exact exec_of_condition_false (branchesOn_bc bo bi bd s) hfalse
  · exact exec_of_condition_false (branchesOn_bca bo bi bd s) hfalse
  · exact exec_of_condition_false (branchesOn_bclr bo bi bh s) hfalse

/-! ## Who writes LR (R179, R205, R208) -/

/-- The writers of LR, and the value it takes. -/
theorem lr_of_lr_changed {i : Instr} {s t : State} (h : exec i s = .next t) (hlr : t.lr ≠ s.lr) :
    ((∃ li, i = .bl li ∨ i = .bla li) ∧ t.lr = s.pc + 4) ∨ ∃ rs, i = .mtspr rs ∧ t.lr = s.readGpr rs := by
  cases i with
  | bl li =>
    obtain rfl := next_inj ((exec_bl li s).symm.trans h)
    exact .inl ⟨⟨li, .inl rfl⟩, rfl⟩
  | bla li =>
    obtain rfl := next_inj ((exec_bla li s).symm.trans h)
    exact .inl ⟨⟨li, .inr rfl⟩, rfl⟩
  | mtspr rs =>
    obtain rfl := next_inj (s := State.advance { s with lr := s.readGpr rs }) h
    exact .inr ⟨rs, rfl, rfl⟩
  | b li =>
    obtain rfl := next_inj ((exec_b li s).symm.trans h)
    exact absurd rfl hlr
  | ba li =>
    obtain rfl := next_inj ((exec_ba li s).symm.trans h)
    exact absurd rfl hlr
  | sc lev =>
    obtain rfl := next_inj (s := takeSystemCall s) h
    exact absurd rfl hlr
  | bc | bca | bclr => rcases next_of_conditionalResult h with rfl | rfl <;> exact absurd rfl hlr
  | _ => exact absurd (next_of_staysInSequence rfl h).2 hlr

/-- A row stands behind `EXT_REF` exactly if the instructions it builds do; here `PO_BC` may be any value. -/
theorem optional_eq_needsExtRef (poBc : BitVec 6) :
    ∀ r ∈ opcodeTable poBc, ∀ w, r.optional = (r.build w).needsExtRef := by
  simp [opcodeTable, fixedRows, arithmeticRows, dataRows, shiftRows, branchRows, compareAndCallRows, optionalRows,
    conditionalRows, Instr.needsExtRef]

theorem extRef_of_decode {poBc : BitVec 6} {ext : Bool} {w : InstrWord} {i : Instr} (h : decode poBc ext w = .ok i)
    (hi : i.needsExtRef = true) : ext = true := by
  rcases decode_cases poBc ext w with ⟨r, hr, _, hadmitted, hd⟩ | ⟨_, _, _, _, hd⟩ | ⟨_, hd⟩
  · cases hd.symm.trans h
    rw [optional_eq_needsExtRef poBc r hr w, hi] at hadmitted
    simpa using hadmitted
  · cases hd.symm.trans h
  · cases hd.symm.trans h

theorem extRef_of_fetchDecode {s : State} {i : Instr} (h : fetchDecode s = .ok i) (hi : i.needsExtRef = true) :
    s.params.extRef = true := by
  unfold fetchDecode at h
  split at h
  · cases h
  · split at h
    · cases h
    · next hd =>
      cases h
      exact extRef_of_decode hd hi

/-- Settles O18: the writers of LR, of which the decoder gives `mtspr` only where `EXT_REF` is true. -/
theorem onlyLinkBranchesAndMtsprWriteLr : Obligations.OnlyLinkBranchesAndMtsprWriteLr := by
  intro s t h hlr
  obtain ⟨i, hi, hexec⟩ := exec_of_step_next h
  rcases lr_of_lr_changed hexec hlr with ⟨⟨li, rfl | rfl⟩, hv⟩ | ⟨rs, rfl, hv⟩
  · exact .inl ⟨⟨li, .inl hi⟩, hv⟩
  · exact .inl ⟨⟨li, .inr hi⟩, hv⟩
  · exact .inr ⟨extRef_of_fetchDecode hi rfl, rs, hi, hv⟩

/-! ## Displacements (R92, R177)

A displacement is four times the signed number in its field, LI or BD; `n` is the width of the field. -/

section
variable {n : Nat} {k : Int}

theorem toInt_signExtend_append_zeros (hn : n + 2 ≤ 64) (f : BitVec n) :
    ((f ++ 0#2).signExtend 64).toInt = 4 * f.toInt := by
  rw [BitVec.toInt_signExtend_of_le hn, BitVec.toInt_append_zero]
  omega

/-- The displacement of a signed number in the range of the field. -/
theorem signExtend_ofInt_append_zeros (hn : 0 < n ∧ n + 2 ≤ 64) (hlow : -2 ^ (n - 1) ≤ k) (hhigh : k < 2 ^ (n - 1)) :
    (BitVec.ofInt n k ++ 0#2).signExtend 64 = BitVec.ofInt 64 (4 * k) := by
  obtain ⟨hpos, hle⟩ := hn
  rw [← BitVec.ofInt_toInt (x := (BitVec.ofInt n k ++ 0#2).signExtend 64), toInt_signExtend_append_zeros hle,
    BitVec.toInt_ofInt_eq_self hpos hlow hhigh]

/-- The displacements are the multiples of 4 in range. -/
theorem exists_signExtend_append_zeros_iff (hn : 0 < n ∧ n + 2 ≤ 64) (a : Word) :
    (∃ f : BitVec n, (f ++ 0#2).signExtend 64 = a) ↔
      ∃ k : Int, (-2 ^ (n - 1) ≤ k ∧ k < 2 ^ (n - 1)) ∧ a.toInt = 4 * k := by
  constructor
  · rintro ⟨f, rfl⟩
    exact ⟨f.toInt, ⟨BitVec.le_toInt f, BitVec.toInt_lt⟩, toInt_signExtend_append_zeros hn.2 f⟩
  · rintro ⟨k, ⟨hlow, hhigh⟩, hk⟩
    refine ⟨BitVec.ofInt n k, ?_⟩
    rw [signExtend_ofInt_append_zeros hn hlow hhigh, ← hk, BitVec.ofInt_toInt]

/-- The field an assembler makes of a displacement is the one it came from. -/
theorem setWidth_signExtend_ushiftRight (hn : n + 2 ≤ 64) (f : BitVec n) :
    ((f ++ 0#2).signExtend 64 >>> 2).setWidth n = f := by
  apply BitVec.eq_of_getLsbD_eq
  intro j hj
  have hin : 2 + j < 64 := by omega
  have hfield : 2 + j < n + 2 := by omega
  have hhigh : ¬2 + j < 2 := by omega
  rw [BitVec.getLsbD_setWidth, BitVec.getLsbD_ushiftRight, BitVec.getLsbD_signExtend, BitVec.getLsbD_append,
    decide_eq_true hj, decide_eq_true hin, if_pos hfield, if_neg hhigh, Nat.add_sub_cancel_left]
  rfl

/-- An assembled displacement is reached (R180 to R185). -/
theorem signExtend_assembled (hn : 0 < n ∧ n + 2 ≤ 64) (hlow : -2 ^ (n - 1) ≤ k) (hhigh : k < 2 ^ (n - 1)) :
    (((BitVec.ofInt 64 (4 * k)) >>> 2).setWidth n ++ 0#2).signExtend 64 = BitVec.ofInt 64 (4 * k) := by
  rw [← signExtend_ofInt_append_zeros hn hlow hhigh, setWidth_signExtend_ushiftRight hn.2]

end

section
variable {k : Int}

theorem liDisp_liOfAddress (hlow : -2 ^ 23 ≤ k) (hhigh : k < 2 ^ 23) :
    liDisp (liOfAddress (BitVec.ofInt 64 (4 * k))) = BitVec.ofInt 64 (4 * k) :=
  signExtend_assembled (by decide) hlow hhigh

theorem bdDisp_bdOfAddress (hlow : -2 ^ 13 ≤ k) (hhigh : k < 2 ^ 13) :
    bdDisp (bdOfAddress (BitVec.ofInt 64 (4 * k))) = BitVec.ofInt 64 (4 * k) :=
  signExtend_assembled (by decide) hlow hhigh

end

/-- A relative target is its displacement from the branch. -/
theorem liOfTarget_add (pc disp : Word) : liOfTarget (pc + disp) pc = liOfAddress disp := by
  rw [liOfTarget, liOfAddress, BitVec.add_comm, BitVec.add_sub_cancel]

theorem bdOfTarget_add (pc disp : Word) : bdOfTarget (pc + disp) pc = bdOfAddress disp := by
  rw [bdOfTarget, bdOfAddress, BitVec.add_comm, BitVec.add_sub_cancel]

theorem exists_liDisp_eq_iff (a : Word) : (∃ li, liDisp li = a) ↔
    a.toNat % 4 = 0 ∧ (a.toNat ≤ 0x01FFFFFC ∨ 0xFFFFFFFFFE000000 ≤ a.toNat) := by
  have hsigned := BitVec.toInt_eq_toNat_cond a
  refine (exists_signExtend_append_zeros_iff (n := 24) (by decide) a).trans ⟨?_, fun h => ⟨a.toInt / 4, ?_⟩⟩
  · rintro ⟨k, hrange, hk⟩
    omega
  · omega

theorem exists_bdDisp_eq_iff (a : Word) : (∃ bd, bdDisp bd = a) ↔
    a.toNat % 4 = 0 ∧ (a.toNat ≤ 0x7FFC ∨ 0xFFFFFFFFFFFF8000 ≤ a.toNat) := by
  have hsigned := BitVec.toInt_eq_toNat_cond a
  refine (exists_signExtend_append_zeros_iff (n := 14) (by decide) a).trans ⟨?_, fun h => ⟨a.toInt / 4, ?_⟩⟩
  · rintro ⟨k, hrange, hk⟩
    omega
  · omega

/-- Settles O49: the targets from the meanings, the ranges from those of the signed fields. -/
theorem branchTargets : Obligations.BranchTargets := by
  refine ⟨fun li bd s => ⟨exec_b li s, exec_ba li s, ?_, ?_⟩, exists_liDisp_eq_iff, exists_bdDisp_eq_iff,
    toNat_clearLowTwo⟩
  · obtain ⟨always, -⟩ := branchesOn_bc 20 0 bd s
    exact always rfl rfl
  · obtain ⟨always, -⟩ := branchesOn_bca 20 0 bd s
    exact always rfl rfl

/-! ## The words of the I-form and the B-form -/

/-- A field with two more bits on its right ends a word as the field and the bits in their own places. -/
theorem fieldAt_append {n : Nat} (f : BitVec n) (low : BitVec 2) :
    fieldAt (f ++ low) 0 = place f 29 ||| place low 31 := by
  apply BitVec.eq_of_getLsbD_eq
  intro j hj
  rw [BitVec.getLsbD_or, getLsbD_place f 29 j hj, getLsbD_place low 31 j hj, fieldAt, BitVec.shiftLeft_zero,
    BitVec.getLsbD_setWidth, BitVec.getLsbD_append]
  by_cases hlow : j < 2
  · simp [hj, hlow, Nat.not_le_of_lt hlow]
  · simp [hj, hlow, Nat.le_of_not_lt hlow]

theorem encodes_iForm {w : InstrWord} {i : Instr} {aa lk : BitVec 1} (li : BitVec 24) (hi : i.needsExtRef = false)
    (h : ∀ poBc, encode poBc i = iForm 18 li aa lk) (hw : place 18#6 5 ||| place aa 30 ||| place lk 31 = w) :
    Encodes (w ||| fieldAt (li ++ 0#2) 0) i := by
  subst hw
  refine encodes_of_encode hi fun poBc => (h poBc).trans ?_
  have hzero : place 0#2 31 = 0#32 := rfl
  rw [fieldAt_append, hzero, BitVec.or_zero]
  change place 18#6 5 ||| place li 29 ||| place aa 30 ||| place lk 31 =
    (place 18#6 5 ||| place aa 30 ||| place lk 31) ||| place li 29
  generalize place 18#6 5 = p, place li 29 = f, place aa 30 = a, place lk 31 = l
  ac_rfl

section
variable {poBc : BitVec 6} (hp : freePrimaryOpcode poBc = true)
include hp

theorem encodesWith_of_encode {w : InstrWord} {i : Instr} (hi : i.needsExtRef = false) (h : encode poBc i = w) :
    EncodesWith poBc w i := by
  refine ⟨h, fun ext => ?_⟩
  rw [← h, decode_encode hp, hi]
  rfl

/-- AA and LK = 0 stand in the two bits to the right of BD. -/
theorem encodesWith_bForm {i : Instr} {aa : BitVec 1} {low : BitVec 2} (bo bi : BitVec 5) (bd : BitVec 14)
    (hi : i.needsExtRef = false) (h : encode poBc i = bForm poBc bo bi bd aa 0)
    (hlow : place aa 30 ||| place 0#1 31 = place low 31) :
    EncodesWith poBc (fieldAt poBc 26 ||| fieldAt bo 21 ||| fieldAt bi 16 ||| fieldAt (bd ++ low) 0) i := by
  refine encodesWith_of_encode hp hi (h.trans ?_)
  rw [fieldAt_append, ← hlow, ← BitVec.or_assoc, ← BitVec.or_assoc]
  rfl

theorem encodesWith_bc (bo bi : BitVec 5) (bd : BitVec 14) :
    EncodesWith poBc (fieldAt poBc 26 ||| fieldAt bo 21 ||| fieldAt bi 16 ||| fieldAt (bd ++ 0#2) 0) (.bc bo bi bd) :=
  encodesWith_bForm hp bo bi bd rfl rfl rfl

theorem encodesWith_bca (bo bi : BitVec 5) (bd : BitVec 14) :
    EncodesWith poBc (fieldAt poBc 26 ||| fieldAt bo 21 ||| fieldAt bi 16 ||| fieldAt (bd ++ 2#2) 0) (.bca bo bi bd) :=
  encodesWith_bForm hp bo bi bd rfl rfl rfl

end

/-- R185 writes AA = 1 in the constant, where the word for every `PO_BC` has it beside BD. -/
theorem bca_word_eq (bo bi : BitVec 5) (bd : BitVec 14) :
    fieldAt Config.defaultPoBc 26 ||| fieldAt bo 21 ||| fieldAt bi 16 ||| fieldAt (bd ++ 2#2) 0 =
      0x40000002 ||| fieldAt bo 21 ||| fieldAt bi 16 ||| fieldAt (bd ++ 0#2) 0 := by
  have hzero : place 0#2 31 = 0#32 := rfl
  have hconstant : (0x40000002 : InstrWord) = fieldAt Config.defaultPoBc 26 ||| place 2#2 31 := rfl
  rw [fieldAt_append, fieldAt_append, hzero, BitVec.or_zero, hconstant]
  generalize fieldAt Config.defaultPoBc 26 = p, fieldAt bo 21 = f1, fieldAt bi 16 = f2, place bd 29 = f3,
    place 2#2 31 = aa
  ac_rfl

/-! ## The obligations on each branch -/

/-- Settles O46: the assembled LI gives the displacement back. -/
theorem unconditionalBranches : Obligations.UnconditionalBranches := by
  refine ⟨fun li => ⟨encodes_iForm li rfl (fun _ => rfl) rfl, encodes_iForm li rfl (fun _ => rfl) rfl⟩,
    fun li s => ⟨exec_b li s, exec_ba li s⟩, fun s k hlow hhigh => ⟨?_, ?_⟩⟩
  · rw [exec_b, liOfTarget_add, liDisp_liOfAddress hlow hhigh]
  · rw [exec_ba, liDisp_liOfAddress hlow hhigh]

/-- Settles O47, as O46 with LR written. -/
theorem branchAndLink : Obligations.BranchAndLink := by
  refine ⟨fun li => encodes_iForm li rfl (fun _ => rfl) rfl, exec_bl, fun s k hlow hhigh => ?_⟩
  rw [exec_bl, liOfTarget_add, liDisp_liOfAddress hlow hhigh]

/-- Settles O48, by the meaning and the I-form with both AA and LK set. -/
theorem branchAbsoluteAndLink : Obligations.BranchAbsoluteAndLink :=
  ⟨fun li => encodes_iForm li rfl (fun _ => rfl) rfl, exec_bla⟩

/-- Settles O50: both are one conditional branch, to the target that the assembled BD gives back. -/
theorem conditionalBranches : Obligations.ConditionalBranches := by
  have hdefault : freePrimaryOpcode Config.defaultPoBc = true := by decide
  refine ⟨fun poBc bo bi bd hp => ⟨encodesWith_bc hp bo bi bd, encodesWith_bca hp bo bi bd⟩,
    fun bo bi bd => ⟨encodesWith_bc hdefault bo bi bd, ?_⟩,
    fun bo bi bd s => ⟨branchesOn_bc bo bi bd s, branchesOn_bca bo bi bd s⟩, fun s bo bi k hlow hhigh => ?_⟩
  · rw [← bca_word_eq]
    exact encodesWith_bca hdefault bo bi bd
  · have relative := branchesOn_bc bo bi (bdOfAddress (BitVec.ofInt 64 (4 * k))) s
    have absolute := branchesOn_bca bo bi (bdOfAddress (BitVec.ofInt 64 (4 * k))) s
    rw [bdDisp_bdOfAddress hlow hhigh] at relative absolute
    rw [bdOfTarget_add]
    exact ⟨relative, absolute⟩

/-- Clearing the two low-order bits takes away what they are worth (R186). -/
theorem clearLowTwo_eq_sub (a : Word) : clearLowTwo a = a - BitVec.ofNat 64 (a.toNat % 4) := by
  apply BitVec.eq_of_toNat_eq
  rw [toNat_clearLowTwo, BitVec.toNat_sub_of_le, BitVec.toNat_ofNat]
  · omega
  · rw [BitVec.le_def, BitVec.toNat_ofNat]
    omega

/-- Settles O51: the shared operation has no BH. -/
theorem branchToLinkRegister : Obligations.BranchToLinkRegister := by
  refine ⟨encodes_bclr, fun bo bi bh s => ?_⟩
  rw [← clearLowTwo_eq_sub]
  exact branchesOn_bclr bo bi bh s

end Sys2Proof.Proofs

/-! A branch after a compare (44_compare R198, 30_encoding R126, R128): the compare's code, bit by bit, as BI names the
bits, and what BO makes of each. -/

namespace Sys2Proof.Proofs
open Sys2Proof.Machine Sys2Proof.Laws

/-! ## The bits of a field (R30, R194) -/

theorem toNat_crFieldBit (f : BitVec 3) (k : BitVec 2) : (crFieldBit f k).toNat = 4 * f.toNat + k.toNat := by
  rw [crFieldBit, BitVec.toNat_append, ← Nat.shiftLeft_add_eq_or_of_lt k.isLt, Nat.shiftLeft_eq, Nat.mul_comm]

/-- CR counts its bits from the left, and so does a field: bit `k` of field `f` is bit 3 - k of the field's code. -/
theorem crBit_crFieldBit (cr : BitVec 32) (f : BitVec 3) (k : BitVec 2) :
    crBit cr (crFieldBit f k) = (crField cr f).getLsbD (3 - k.toNat) := by
  have hf := f.isLt
  have hk := k.isLt
  have hplace : 31 - (4 * f.toNat + k.toNat) = 28 - 4 * f.toNat + (3 - k.toNat) := by omega
  have hin : 3 - k.toNat < 4 := by omega
  rw [crBit, toNat_crFieldBit, hplace, crField, BitVec.getLsbD_extractLsb', decide_eq_true hin, Bool.true_and]

/-- Bit 4f says less, 4f + 1 greater, 4f + 2 equal (conflict C8): of the three, the code has the one that is true. -/
theorem crBit_of_comparesInto {cr cr' : BitVec 32} {bf : BitVec 3} {a b : Int} (h : ComparesInto cr cr' bf a b) :
    crBit cr' (crFieldBit bf 0) = decide (a < b) ∧ crBit cr' (crFieldBit bf 1) = decide (b < a) ∧
      crBit cr' (crFieldBit bf 2) = decide (a = b) := by
  obtain ⟨hfield, -⟩ := h
  simp only [crBit_crFieldBit, hfield]
  rcases lt_trichotomy a b with hlt | heq | hgt
  · simp [hlt, hlt.ne, hlt.not_gt]
  · simp [heq]
  · simp [hgt, hgt.ne', hgt.not_gt]

/-! ## The branch on a bit that says whether `P` (R187, the spec's decision D5) -/

section
variable {P : Prop} [Decidable P] {s : State} {bi : BitVec 5} (hbit : crBit s.cr bi = decide P) (bd : BitVec 14)
include hbit

theorem exec_bc_ifSet : exec (.bc 12 bi bd) s = .next { s with pc := if P then s.pc + bdDisp bd else s.pc + 4 } := by
  obtain ⟨-, ifSet, -, -⟩ := branchesOn_bc 12 bi bd s
  rw [ifSet rfl, ← crBit, hbit]
  simp only [decide_eq_true_eq]

theorem exec_bc_ifClear : exec (.bc 4 bi bd) s = .next { s with pc := if P then s.pc + 4 else s.pc + bdDisp bd } := by
  obtain ⟨-, -, ifClear, -⟩ := branchesOn_bc 4 bi bd s
  rw [ifClear rfl, ← crBit, hbit]
  simp only [decide_eq_true_eq]

end

/-- Settles O54: each branch tests the bit of its relation, and BO = 4 asks for the relation that is its negation. -/
theorem branchAfterCompare : Obligations.BranchAfterCompare := by
  rintro bf ra rb bd s t a b rfl rfl hcmp
  obtain ⟨⟨c, hexec, hcompares⟩, -⟩ := compareRegisters.2 bf ra rb s
  have hcr : t.cr = c := congrArg State.cr (next_inj (hcmp.symm.trans hexec))
  rw [← hcr] at hcompares
  obtain ⟨hless, hgreater, hequal⟩ := crBit_of_comparesInto hcompares
  have beq := exec_bc_ifSet hequal bd
  have bne := exec_bc_ifClear hequal bd
  have bge := exec_bc_ifClear hless bd
  have ble := exec_bc_ifClear hgreater bd
  simp only [← not_le, ite_not] at bge ble
  refine ⟨beq, bne, exec_bc_ifSet hless bd, exec_bc_ifSet hgreater bd, bge, ble, ?_⟩
  rintro rfl
  exact ⟨beq, bne⟩

end Sys2Proof.Proofs

/-! The system call (45_system_call R200 to R203): what `sc` leaves, what each shape of `SyscallService` makes of it, and
how a run can end. -/

namespace Sys2Proof.Proofs
open Sys2Proof.Machine Sys2Proof.Laws

/-! ## The instruction (R200) -/

theorem exec_sc (lev : BitVec 7) (s : State) : exec (.sc lev) s = .next (takeSystemCall s) := rfl

/-- Settles O55, by the meaning of `sc`, which has no LEV. -/
theorem systemCall : Obligations.SystemCall := exec_sc

/-! ## One step of a run (R202) -/

theorem step_of_fetchDecode {s : State} {i : Instr} (h : fetchDecode s = .ok i) : step s = exec i s := by
  rw [step, h]

theorem atSystemCall_iff (s : State) : atSystemCall s = true ↔ ∃ lev, fetchDecode s = .ok (.sc lev) := by
  unfold atSystemCall
  split
  next lev hsc => exact iff_of_true rfl ⟨lev, hsc⟩
  next hother => exact iff_of_false Bool.false_ne_true fun ⟨lev, hsc⟩ => hother lev hsc

/-- At an `sc` the environment takes over from the state the trap leaves. -/
theorem runStep_of_sc {s : State} {lev : BitVec 7} (service : SyscallService) (h : fetchDecode s = .ok (.sc lev)) :
    runStep service s = afterSystemCall service (takeSystemCall s) := by
  have hat : atSystemCall s = true := (atSystemCall_iff s).mpr ⟨lev, h⟩
  have hstep : step s = .next (takeSystemCall s) := step_of_fetchDecode h
  rw [runStep, hstep, hat]
  rfl

/-- Settles O56: the three shapes are the three cases of what follows an `sc`. -/
theorem syscallServiceShapes : Obligations.SyscallServiceShapes := by
  rintro s t lev hsc rfl
  exact ⟨runStep_of_sc .halt hsc, runStep_of_sc .handler hsc, fun f => runStep_of_sc (.service f) hsc⟩

/-! ## Nothing is refused (R214) -/

/-- Each shared operation goes on or faults, and so does each instruction. -/
theorem exec_ne_refused (i : Instr) (s : State) (r : Refusal) : exec i s ≠ .refused r := by
  intro h
  cases acts i with
  | register _ exec_eq _ | jump _ exec_eq _ _ | link _ exec_eq _ _ | compare _ exec_eq _ _ =>
    cases (exec_eq s).symm.trans h
  | load _ exec_eq =>
    rw [exec_eq, loadResult_eq] at h
    split at h <;> cases h
  | store _ exec_eq _ =>
    rw [exec_eq, storeResult_eq] at h
    split at h <;> cases h
  | storeUpdate rs d ra =>
    change execStwu rs d ra s = .refused r at h
    rw [execStwu, storeUpdateResult_eq] at h
    split at h
    · cases h
    · split at h <;> cases h
  | @conditional _ bo bi target _ exec_eq _ _ =>
    rw [exec_eq] at h
    rcases conditionalResult_cases s (encode s.params.poBc i) bo bi (target s) with
      ⟨_, stop⟩ | ⟨_, _, ⟨_, taken⟩ | ⟨_, notTaken⟩⟩
    · cases stop.symm.trans h
    · cases taken.symm.trans h
    · cases notTaken.symm.trans h
  | systemCall lev => cases h
  | toLink rs => cases h

theorem step_ne_refused (s : State) (r : Refusal) : step s ≠ .refused r := by
  intro h
  rcases step_cases s with ⟨_, hs⟩ | ⟨_, _, ⟨_, _, hs⟩ | ⟨i, _, _, hs⟩⟩
  · cases hs.symm.trans h
  · cases hs.symm.trans h
  · exact exec_ne_refused i s r (hs.symm.trans h)

/-! ## How a run ends (R203) -/

/-- Where a run can stand: it goes on, an `sc` under `halt` ended it, or the state it holds faults. -/
inductive EndsAsNamed (service : SyscallService) : RunStatus → Prop where
  | running (t : State) : EndsAsNamed service (.running t)
  | ended {u t : State} {lev : BitVec 7} (halts : service = .halt) (atSc : fetchDecode u = .ok (.sc lev))
      (stepped : step u = .next t) : EndsAsNamed service (.ended t)
  | faulted {t : State} {f : Fault} (stops : step t = .fault f) : EndsAsNamed service (.faulted t f)

theorem afterSystemCall_endsAsNamed (service : SyscallService) {u t : State} {lev : BitVec 7}
    (atSc : fetchDecode u = .ok (.sc lev)) (stepped : step u = .next t) :
    EndsAsNamed service (afterSystemCall service t) := by
  cases service with
  | halt => exact .ended rfl atSc stepped
  | service f => exact .running (serviceReturn f t)
  | handler => exact .running t

theorem runStep_endsAsNamed (service : SyscallService) (s : State) : EndsAsNamed service (runStep service s) := by
  unfold runStep
  split
  next f stops => exact .faulted stops
  next r refused => exact absurd refused (step_ne_refused s r)
  next t stepped =>
    split
    next hat =>
      obtain ⟨lev, atSc⟩ := (atSystemCall_iff s).mp hat
      exact afterSystemCall_endsAsNamed service atSc stepped
    next => exact .running t

/-- A run stands where its last step left it. -/
theorem runUnder_endsAsNamed (service : SyscallService) (k : Nat) (s : State) :
    EndsAsNamed service (runUnder service k s) := by
  induction k generalizing s with
  | zero => exact .running s
  | succ k ih =>
    have hstep := runStep_endsAsNamed service s
    rw [runUnder]
    cases hrun : runStep service s with
    | running t => exact ih t
    | ended t | faulted t f | refused t r =>
      rw [hrun] at hstep
      exact hstep

/-- Settles O57, by induction over the steps: every step of a run ends as named or not at all. -/
theorem runsEndAsNamed : Obligations.RunsEndAsNamed := by
  intro service k s
  have hrun := runUnder_endsAsNamed service k s
  refine ⟨fun t h => ?_, fun t f h => ?_, fun t r h => ?_⟩
  · rw [h] at hrun
    cases hrun with
    | ended halts atSc stepped => exact ⟨halts, _, _, atSc, stepped⟩
  · rw [h] at hrun
    cases hrun with
    | faulted stops => exact stops
  · rw [h] at hrun
    cases hrun

end Sys2Proof.Proofs

/-! The instructions behind `EXT_REF` (46_referenced_not_defined R205 to R208): the words of the XFX-form and the
MD-form, which decode only where it is true, LR moved whole, and the rotated doubleword under its mask bit by bit. -/

namespace Sys2Proof.Proofs
open Sys2Proof.Machine Sys2Proof.Laws

/-! ## The words of the XFX-form and the MD-form -/

/-- The decoder knows an optional instruction by its word and admits it by `EXT_REF` (R208). -/
theorem encodesOptional_of_encode {w : InstrWord} {i : Instr} (hi : i.needsExtRef = true)
    (h : ∀ poBc, encode poBc i = w) : EncodesOptional w i := by
  intro poBc hp
  have hdecode := decode_encode hp i
  rw [h poBc, hi] at hdecode
  exact ⟨h poBc, hdecode true, hdecode false⟩

/-- The constant holds the primary opcode, both halves of the SPR number and the extended opcode (R205). -/
theorem encodesOptional_xfxForm {w : InstrWord} {i : Instr} {po : BitVec 6} {spr xo : BitVec 10} (f1 : BitVec 5)
    (hi : i.needsExtRef = true) (h : ∀ poBc, encode poBc i = xfxForm po f1 spr xo)
    (hw : place po 5 ||| place (spr.extractLsb' 0 5) 15 ||| place (spr.extractLsb' 5 5) 20 ||| place xo 30 = w) :
    EncodesOptional (w ||| fieldAt f1 21) i := by
  subst hw
  refine encodesOptional_of_encode hi fun poBc => (h poBc).trans ?_
  change place po 5 ||| place f1 10 ||| place (spr.extractLsb' 0 5) 15 ||| place (spr.extractLsb' 5 5) 20 |||
      place xo 30 =
    (place po 5 ||| place (spr.extractLsb' 0 5) 15 ||| place (spr.extractLsb' 5 5) 20 ||| place xo 30) ||| place f1 10
  generalize place po 5 = p, place f1 10 = r, place (spr.extractLsb' 0 5) 15 = low,
    place (spr.extractLsb' 5 5) 20 = high, place xo 30 = x
  ac_rfl

/-- The high bit of ME stands before the extended opcode, that of SH after it (R207). -/
theorem encodesOptional_rldicr (ra rs : RegNum) (sh me : BitVec 6) :
    EncodesOptional (0x78000004 ||| fieldAt rs 21 ||| fieldAt ra 16 ||| fieldAt (sh.extractLsb' 0 5) 11 |||
      fieldAt (me.extractLsb' 0 5) 6 ||| fieldAt (me.extractLsb' 5 1) 5 ||| fieldAt (sh.extractLsb' 5 1) 1)
      (.rldicr ra rs sh me) := by
  refine encodesOptional_of_encode rfl fun _ => ?_
  change place 30#6 5 ||| place rs 10 ||| place ra 15 ||| place (sh.extractLsb' 0 5) 20 |||
      place (me.extractLsb' 0 5) 25 ||| place (me.extractLsb' 5 1) 26 ||| place 1#3 29 |||
      place (sh.extractLsb' 5 1) 30 ||| place 0#1 31 =
    (place 30#6 5 ||| place 1#3 29 ||| place 0#1 31) ||| place rs 10 ||| place ra 15 |||
      place (sh.extractLsb' 0 5) 20 ||| place (me.extractLsb' 0 5) 25 ||| place (me.extractLsb' 5 1) 26 |||
      place (sh.extractLsb' 5 1) 30
  generalize place 30#6 5 = po, place rs 10 = f1, place ra 15 = f2, place (sh.extractLsb' 0 5) 20 = shLow,
    place (me.extractLsb' 0 5) 25 = meLow, place (me.extractLsb' 5 1) 26 = meHigh, place 1#3 29 = xo,
    place (sh.extractLsb' 5 1) 30 = shHigh, place 0#1 31 = rc
  ac_rfl

/-! ## Moves to and from LR (R205, R206) -/

theorem exec_mtspr (rs : RegNum) (s : State) :
    exec (.mtspr rs) s = .next { s with lr := s.readGpr rs, pc := s.pc + 4 } := rfl

/-- Settles O58: the two words differ in the extended opcode alone; what is read goes over whole. -/
theorem moveToAndFromLinkRegister : Obligations.MoveToAndFromLinkRegister :=
  ⟨fun r => ⟨encodesOptional_xfxForm r rfl (fun _ => rfl) rfl, encodesOptional_xfxForm r rfl (fun _ => rfl) rfl⟩,
    fun r s => ⟨exec_mtspr r s, writeResult_eq s r _⟩⟩

/-! ## The rotated doubleword under its mask (R207) -/

/-- A mask from the most significant position on, by the weight of the bits. -/
theorem getLsbD_mask_zero {b j : Nat} (hb : b < 64) (hj : j < 64) :
    (mask 0 b).getLsbD j = decide (63 - b ≤ j) := by
  rw [Bool.eq_iff_iff, getLsbD_mask_iff 0 hb hj, decide_eq_true_iff]
  omega

/-- Settles O59: a bit of the result is a bit of the rotated doubleword and one of the mask. -/
theorem rotateDoublewordAndClearRight : Obligations.RotateDoublewordAndClearRight := by
  refine ⟨encodesOptional_rldicr, fun ra rs sh me s => ⟨_, writeResult_eq s ra _, fun q hq => ?_⟩⟩
  have hsource : (q + (64 - sh.toNat % 64)) % 64 = (q + 64 - sh.toNat) % 64 := by omega
  rw [BitVec.getLsbD_and, getLsbD_rotl64 _ _ hq, getLsbD_mask_zero me.isLt hq, hsource]

end Sys2Proof.Proofs

/-! Where a step stops and in which order it checks (60_exceptions R214, R216), and what the environment fixed
(70_reset_and_hazards R230). -/

namespace Sys2Proof.Proofs
open Sys2Proof.Machine Sys2Proof.Laws

/-! ## Where an instruction stops (R109, R155, R214) -/

/-- The faults that an instruction can stop with. -/
inductive StopOf (i : Instr) (s : State) : Fault → Prop where
  | invalidForm (illFormed : i.wellFormed = false) : StopOf i s (.invalidForm (encode s.params.poBc i))
  | notPermitted {kind : AccessKind} {a : Word} {n : Nat} (reaches : reachesMemory i = true)
      (denied : s.permits kind a n = false) : StopOf i s (.memFault a n kind)

section
variable {i : Instr} {s : State} {f : Fault}

theorem stopOf_of_loadResult {rt : RegNum} {ea : Word} {n : Nat} {extend : BitVec (8 * n) → Word}
    (reaches : reachesMemory i = true) (h : loadResult s rt ea n extend = .fault f) : StopOf i s f := by
  rw [loadResult_eq] at h
  split at h <;> cases h
  next denied => exact .notPermitted reaches (Bool.eq_false_iff.mpr denied)

theorem stopOf_of_storeResult {ea : Word} {n : Nat} {v : BitVec (8 * n)} (reaches : reachesMemory i = true)
    (h : storeResult s ea n v = .fault f) : StopOf i s f := by
  rw [storeResult_eq] at h
  split at h <;> cases h
  next denied => exact .notPermitted reaches (Bool.eq_false_iff.mpr denied)

theorem stopOf_of_execStwu {rs ra : RegNum} {d : BitVec 16} (h : execStwu rs d ra s = .fault f) :
    StopOf (.stwu rs d ra) s f := by
  rw [execStwu, storeUpdateResult_eq] at h
  split at h
  next zeroBase =>
    cases h
    exact .invalidForm (bne_eq_false_iff_eq.mpr zeroBase)
  next =>
    split at h <;> cases h
    next denied => exact .notPermitted rfl (Bool.eq_false_iff.mpr denied)

theorem stopOf_of_conditionalResult {bo bi : BitVec 5} {target : Word} (form : i.wellFormed = (boTest bo).isSome)
    (h : conditionalResult s (encode s.params.poBc i) bo bi target = .fault f) : StopOf i s f := by
  rcases conditionalResult_cases s (encode s.params.poBc i) bo bi target with
    ⟨hbo, stop⟩ | ⟨_, _, ⟨_, taken⟩ | ⟨_, notTaken⟩⟩
  · cases stop.symm.trans h
    exact .invalidForm (by rw [form, hbo]; rfl)
  · cases taken.symm.trans h
  · cases notTaken.symm.trans h

/-- The counterpart of `nextOf_of_exec`: an instruction of any other kind goes on in every state. -/
theorem stopOf_of_exec (h : exec i s = .fault f) : StopOf i s f := by
  cases i with
  | ld | lwz | lhz | lha | lbz => exact stopOf_of_loadResult rfl h
  | std | stw | sth | stb => exact stopOf_of_storeResult rfl h
  | stwu => exact stopOf_of_execStwu h
  | bc | bca | bclr => exact stopOf_of_conditionalResult rfl h
  | _ => cases h

theorem notPermitted_of_exec (h : exec i s = .fault f) (form : i.wellFormed = true) :
    reachesMemory i = true ∧ ∃ a n kind, f = .memFault a n kind ∧ s.permits kind a n = false := by
  cases stopOf_of_exec h with
  | invalidForm illFormed => cases form.symm.trans illFormed
  | notPermitted reaches denied => exact ⟨reaches, _, _, _, rfl, denied⟩

end

theorem exec_of_illFormed {i : Instr} (s : State) (illFormed : i.wellFormed = false) :
    exec i s = .fault (.invalidForm (encode s.params.poBc i)) := by
  cases i with
  | stwu => exact if_pos (bne_eq_false_iff_eq.mp illFormed)
  | bc | bca | bclr =>
    exact conditionalResult_invalid (Option.not_isSome_iff_eq_none.mp (Bool.eq_false_iff.mp illFormed)) s _ _ _
  | _ => cases illFormed

/-- Settles O11, from the faults that an instruction can stop with. -/
theorem instructionsStopOnlyAsNamed : Obligations.InstructionsStopOnlyAsNamed := fun i s =>
  ⟨exec_ne_refused i s, exec_of_illFormed s, fun _ => notPermitted_of_exec⟩

/-! ## The order of a step's checks (R216) -/

/-- Settles O10: the step runs what it decoded, and an ill-formed instruction names the word it was decoded from. -/
theorem checksComeInOrder : Obligations.ChecksComeInOrder := by
  refine ⟨fun s unbacked => ?_, fun s w e => step_of_illegal, fun s w i hfetch hdecode illFormed => ?_,
    fun s w i f hfetch hdecode form h => ?_⟩
  · simp only [step, fetchDecode, fetch_error unbacked]
  · rw [step_of_decode hfetch hdecode, exec_of_illFormed s illFormed, encodeOfDecodeIsTheWord _ _ _ _ hdecode]
  · exact notPermitted_of_exec ((step_of_decode hfetch hdecode).symm.trans h) form

/-! ## The environment's parameters (R230) -/

theorem exec_keeps_params {i : Instr} {s t : State} (h : exec i s = .next t) : t.params = s.params := by
  cases nextOf_of_exec h with
  | wrote | stored | storedAndWrote | jumped | linked | fellThrough | compared | trapped | wroteLink => rfl

/-- Settles O14: no state that an instruction can go on to has other parameters. -/
theorem stepKeepsTheParameters : Obligations.StepKeepsTheParameters := by
  intro s t h
  obtain ⟨_, _, hexec⟩ := exec_of_step_next h
  exact exec_keeps_params hexec

end Sys2Proof.Proofs
